-- ==== Sys2Proof/Word.lean ====
section
/-! DEFINITION. The word types of the engine (spec/00_scope.md R8): an opcode and every extra byte is 8 bits;
a distance, a literal length and a match length are held in 16 bits. Cursors, sizes and capacities are natural
numbers (R10, R140; notes/assumptions/1.md). -/

namespace Sys2Proof

/-- An opcode byte, an extra byte, a byte of either buffer (R8, R32). -/
abbrev Byte := BitVec 8

/-- A 16-bit register: `PREV_DIST`, `LIT_LEN`, `MATCH_LEN` (R8, R21). -/
abbrev Half := BitVec 16

end Sys2Proof
end

