-- ==== Sys2Proof/Syntax.lean ====
section
/-! DEFINITION. The eleven opcode types and the tokens of the LZVN stream as syntax.
A token is held as the raw bit fields of spec/30_encoding.md R81 (opcode and extra bytes; its literal payload stays in
`SRC`, notes/assumptions/22.md). The 37 rows of spec/opcode_table.json are encodings of these eleven mnemonics. -/

namespace Sys2Proof

/-- The eleven opcode types (spec/40_classifier.md R111), in the order of the spec's codes 0 to 10.
`noOp` is the spec's NONE. -/
inductive OpType where
  | distanceLarge
  | distanceMedium
  | distanceSmall
  | distancePrevious
  | literalLarge
  | literalSmall
  | matchLarge
  | matchSmall
  | endOfStream
  | noOp
  | invalid
deriving DecidableEq, Repr

/-- A token: opcode byte and extra bytes as the fields of R81. `lit` is the literal-length field, `m` the
match-length field (the length less 3), `d` the whole distance, `n` a length field. -/
inductive Instr where
  /-- DISTANCE_LARGE, `LLMMM111`, two extra bytes (R81, R161). -/
  | distanceLarge (lit : BitVec 2) (m : BitVec 3) (d : BitVec 16)
  /-- DISTANCE_MEDIUM, `101LLMMM`, two extra bytes (R81, R162); `m` is split over opcode and `E1`. -/
  | distanceMedium (lit : BitVec 2) (m : BitVec 5) (d : BitVec 14)
  /-- DISTANCE_SMALL, `LLMMMDDD`, one extra byte (R81, R163). -/
  | distanceSmall (lit : BitVec 2) (m : BitVec 3) (d : BitVec 11)
  /-- DISTANCE_PREVIOUS, `LLMMM110` with `LL` not 0, no extra byte (R81, R164). -/
  | distancePrevious (lit : BitVec 2) (m : BitVec 3)
  /-- LITERAL_LARGE, 0xE0, one extra byte, the length less 16 (R81, R170). -/
  | literalLarge (n : BitVec 8)
  /-- LITERAL_SMALL, `1110NNNN` with `NNNN` not 0 (R81, R171). -/
  | literalSmall (n : BitVec 4)
  /-- MATCH_LARGE, 0xF0, one extra byte, the length less 16 (R81, R176). -/
  | matchLarge (n : BitVec 8)
  /-- MATCH_SMALL, `1111NNNN` with `NNNN` not 0 (R81, R177). -/
  | matchSmall (n : BitVec 4)
  /-- END_OF_STREAM, 0x06 (R81, R180). -/
  | endOfStream
  /-- NONE, the byte 0x0E or the byte 0x16, equivalent (R81, R181). -/
  | noOp (b : Byte)
  /-- INVALID, one of 37 bytes (R81, R85, R182). -/
  | invalid (b : Byte)
deriving DecidableEq, Repr

/-- The opcode type a token is of. -/
def Instr.opType : Instr → OpType
  | .distanceLarge _ _ _ => .distanceLarge
  | .distanceMedium _ _ _ => .distanceMedium
  | .distanceSmall _ _ _ => .distanceSmall
  | .distancePrevious _ _ => .distancePrevious
  | .literalLarge _ => .literalLarge
  | .literalSmall _ => .literalSmall
  | .matchLarge _ => .matchLarge
  | .matchSmall _ => .matchSmall
  | .endOfStream => .endOfStream
  | .noOp _ => .noOp
  | .invalid _ => .invalid

end Sys2Proof
end

