-- ==== Sys2Proof/Decode.lean ====
section
/-! DEFINITION. The opcode classifier (spec/40_classifier.md R110 to R113, spec/30_encoding.md R85, R86), the
decoder of a token's opcode and extra bytes (R80 to R84) and the encoder (R81, R93). Total on any bytes: a byte string
is a token followed by the rest of the stream, or is rejected by name (empty, or cut short inside the extra bytes). -/

namespace Sys2Proof

/-- One row of R85's map whose columns +0 to +5 are DISTANCE_SMALL and column +7 is DISTANCE_LARGE; the type of
column +6 is given. -/
def distanceRow (col6 : OpType) : List OpType :=
  [.distanceSmall, .distanceSmall, .distanceSmall, .distanceSmall, .distanceSmall, .distanceSmall, col6, .distanceLarge]

/-- A row of R85's map of eight equal entries. -/
def uniformRow (t : OpType) : List OpType := [t, t, t, t, t, t, t, t]

/-- A row of R85's map whose column +0 differs from the other seven. -/
def headRow (h t : OpType) : List OpType := [h, t, t, t, t, t, t, t]

/-- The classifier's 256 entries, R85's map row by row (bases 0x00, 0x08, ..., 0xF8). -/
def classTable : List OpType :=
  -- 0x00, 0x08, 0x10, 0x18
  distanceRow .endOfStream ++ distanceRow .noOp ++ distanceRow .noOp ++ distanceRow .invalid
  -- 0x20, 0x28, 0x30, 0x38
  ++ distanceRow .invalid ++ distanceRow .invalid ++ distanceRow .invalid ++ distanceRow .invalid
  -- 0x40, 0x48, 0x50, 0x58
  ++ distanceRow .distancePrevious ++ distanceRow .distancePrevious
  ++ distanceRow .distancePrevious ++ distanceRow .distancePrevious
  -- 0x60, 0x68, 0x70, 0x78
  ++ distanceRow .distancePrevious ++ distanceRow .distancePrevious
  ++ uniformRow .invalid ++ uniformRow .invalid
  -- 0x80, 0x88, 0x90, 0x98
  ++ distanceRow .distancePrevious ++ distanceRow .distancePrevious
  ++ distanceRow .distancePrevious ++ distanceRow .distancePrevious
  -- 0xA0, 0xA8, 0xB0, 0xB8
  ++ uniformRow .distanceMedium ++ uniformRow .distanceMedium
  ++ uniformRow .distanceMedium ++ uniformRow .distanceMedium
  -- 0xC0, 0xC8, 0xD0, 0xD8
  ++ distanceRow .distancePrevious ++ distanceRow .distancePrevious
  ++ uniformRow .invalid ++ uniformRow .invalid
  -- 0xE0, 0xE8, 0xF0, 0xF8
  ++ headRow .literalLarge .literalSmall ++ uniformRow .literalSmall
  ++ headRow .matchLarge .matchSmall ++ uniformRow .matchSmall

/-- `CLASS[b]` (R110): a lookup in the constant table. The default is never used: the table has 256 entries. -/
def classify (b : Byte) : OpType := classTable.getD b.toNat .invalid

/-- `X[lo+len-1 : lo]` (spec/00_scope.md R9): `len` bits of a byte from bit `lo` up, bit `lo` as bit 0 of the result. -/
def Byte.field (x : Byte) (lo len : Nat) : BitVec len := x.extractLsb' lo len

/-- The equivalent arithmetic classifier of R86, line by line. -/
def classifyArith (b : Byte) : OpType :=
  if 0xF0 ≤ b.toNat then (if b = 0xF0 then .matchLarge else .matchSmall)
  else if 0xE0 ≤ b.toNat then (if b = 0xE0 then .literalLarge else .literalSmall)
  else if Byte.field b 4 4 = 0x7 ∨ Byte.field b 4 4 = 0xD then .invalid
  else if Byte.field b 5 3 = 0b101 then .distanceMedium
  else if Byte.field b 0 3 = 0b111 then .distanceLarge
  else if Byte.field b 0 3 = 0b110 then
    (if Byte.field b 6 2 ≠ 0 then .distancePrevious
     else if Byte.field b 3 3 = 0 then .endOfStream
     else if (Byte.field b 3 3).toNat ≤ 2 then .noOp
     else .invalid)
  else .distanceSmall

/-- How many extra bytes a type has (R82). -/
def extraBytes : OpType → Nat
  | .distanceLarge => 2
  | .distanceMedium => 2
  | .distanceSmall => 1
  | .literalLarge => 1
  | .matchLarge => 1
  | .distancePrevious => 0
  | .literalSmall => 0
  | .matchSmall => 0
  | .endOfStream => 0
  | .noOp => 0
  | .invalid => 0

/-- The token that an opcode byte and its extra bytes stand for: the fields of R81 and the assembly of the distance
(R50, R84). An extra byte the type does not have is not looked at. -/
def assemble (op e1 e2 : Byte) : Instr :=
  match classify op with
  | .distanceLarge => .distanceLarge (Byte.field op 6 2) (Byte.field op 3 3) (e2 ++ e1)
  | .distanceMedium =>
      .distanceMedium (Byte.field op 3 2) (Byte.field op 0 3 ++ Byte.field e1 0 2) (e2 ++ Byte.field e1 2 6)
  | .distanceSmall => .distanceSmall (Byte.field op 6 2) (Byte.field op 3 3) (Byte.field op 0 3 ++ e1)
  | .distancePrevious => .distancePrevious (Byte.field op 6 2) (Byte.field op 3 3)
  | .literalLarge => .literalLarge e1
  | .literalSmall => .literalSmall (Byte.field op 0 4)
  | .matchLarge => .matchLarge e1
  | .matchSmall => .matchSmall (Byte.field op 0 4)
  | .endOfStream => .endOfStream
  | .noOp => .noOp op
  | .invalid => .invalid op

/-- Why a byte string does not begin with a whole token. -/
inductive Reject where
  /-- No byte at all. -/
  | noByte
  /-- The opcode byte is there and its extra bytes are not all there (the engine's TruncatedInput, R141). -/
  | truncated
deriving DecidableEq, Repr

/-- Read one token's opcode and extra bytes off a byte string; the rest (the literal payload and the tokens after it)
is returned untouched. -/
def decode (bytes : List Byte) : Except Reject (Instr × List Byte) :=
  match bytes with
  | [] => .error .noByte
  | op :: rest =>
    if rest.length < extraBytes (classify op) then .error .truncated
    else .ok (assemble op (rest.getD 0 0) (rest.getD 1 0), rest.drop (extraBytes (classify op)))

/-- The opcode and extra bytes of a token, from R81 and R93. -/
def encode : Instr → List Byte
  | .distanceLarge lit m d => [lit ++ m ++ 0b111#3, d.extractLsb' 0 8, d.extractLsb' 8 8]
  | .distanceMedium lit m d =>
      [0b101#3 ++ lit ++ m.extractLsb' 2 3, d.extractLsb' 0 6 ++ m.extractLsb' 0 2, d.extractLsb' 6 8]
  | .distanceSmall lit m d => [lit ++ m ++ d.extractLsb' 8 3, d.extractLsb' 0 8]
  | .distancePrevious lit m => [lit ++ m ++ 0b110#3]
  | .literalLarge n => [0xE0, n]
  | .literalSmall n => [0b1110#4 ++ n]
  | .matchLarge n => [0xF0, n]
  | .matchSmall n => [0b1111#4 ++ n]
  | .endOfStream => [0x06]
  | .noOp b => [b]
  | .invalid b => [b]

/-- The first `n` bytes of a number whose bits 7..0 are the first byte, 15..8 the second, and so on. -/
def bytesOfWord : Nat → Nat → List Byte
  | 0, _ => []
  | n + 1, w => BitVec.ofNat 8 w :: bytesOfWord n (w / 256)

/-- The instruction the decoder reads from a word numbered as spec/opcode_table.json numbers it: the first byte in bits
7..0, extra bytes from bit 8 on, every bit above `nbits` zero. Three bytes hold any opcode with its extra bytes. -/
def decodeTableWord (nbits w : Nat) : Option Instr :=
  match decode (bytesOfWord 3 (w % 2 ^ nbits)) with
  | .ok (i, _) => some i
  | .error _ => none

end Sys2Proof
end

