-- ==== Sys2Proof/Config.lean ====
section
/-! DEFINITION. The two parameters the spec leaves open (spec/00_scope.md R7; 92_eei_decisions.md D1, D2).
Both rest on constants without a body, so no proof can see a value; the constraints of R7 hold whatever they are.
See notes/assumptions/1.md and notes/assumptions/2.md. -/

namespace Sys2Proof.Config

/-- By how many bits `AW` exceeds its least value 16 (R7: `AW >= 16`). Open: no body. -/
opaque awExcess : Nat

/-- `AW`, the width in bits of a cursor, a size and a capacity (R7, D1). -/
def aw : Nat := 16 + awExcess

/-- The platform's limit on a declared size before R7's bound is applied. Open: no body. -/
opaque platformLimit : Nat

/-- `MAX_SIZE`, the largest `SRC_SIZE` and `DST_CAP` that `START` accepts: any value in `0 .. 2^AW - 1` (R7, D2). -/
def maxSize : Nat := min platformLimit (2 ^ aw - 1)

end Sys2Proof.Config
end

