-- ==== Sys2Proof/Machine/Memory.lean ====
section
/-! DEFINITION. One byte space as plain data: a list of (offset, byte) pairs with strictly rising offsets.
An unlisted offset has NO value (notes/assumptions/5.md): nothing has supplied or written it, and reading it is a fault
of the operation that reads. Two such spaces exist, `SRC` and `DST` (spec/10_state.md R32). -/

namespace Sys2Proof.Machine

/-- A byte space: the listed bytes, by rising offset. -/
abbrev Memory := List Host.Cell

/-- The canonical form: offsets strictly rising. No entry can equal what an unlisted offset reads as, for that is no
value. -/
abbrev Memory.wf (m : Memory) : Prop := m.Pairwise (fun x y => x.1 < y.1)

/-- The byte at an offset, if one is listed. -/
def Memory.read : Memory → Nat → Option Byte
  | [], _ => none
  | (k, v) :: t, a => if a = k then some v else Memory.read t a

/-- Store one byte, keeping the offsets rising. -/
def Memory.write : Memory → Nat → Byte → Memory
  | [], a, b => [(a, b)]
  | (k, v) :: t, a, b =>
    if a < k then (a, b) :: (k, v) :: t
    else if a = k then (a, b) :: t
    else (k, v) :: Memory.write t a b

/-- Store a run of bytes from an offset up. -/
def Memory.writeRun : Memory → Nat → List Byte → Memory
  | m, _, [] => m
  | m, a, b :: bs => Memory.write (Memory.writeRun m (a + 1) bs) a b

/-- The space that holds exactly these bytes from offset 0 up. -/
def Memory.ofBytes (bs : List Byte) : Memory := Memory.writeRun [] 0 bs

/-- Every offset below `n` has a byte. -/
def Memory.covers (m : Memory) (n : Nat) : Bool :=
  (List.range n).all (fun a => (m.read a).isSome)

end Sys2Proof.Machine
end

