-- ==== Sys2Proof/Machine/State.lean ====
section
/-! DEFINITION. The whole state of one engine (spec/10_state.md R20, R21, R25, R32) with the host's moves still to
come, the reasons a step can stop, and the state after power-on reset (R34, R230). -/

namespace Sys2Proof.Machine

/-- `STATE` (R26). -/
inductive RunState where
  | idle
  | run
  | done
  | fault
deriving DecidableEq, Repr

/-- `STOP_REASON` (R30). -/
inductive StopReason where
  | notStopped
  | eos
  | outputFull
  | inputEnd
deriving DecidableEq, Repr

/-- `ERR_KIND` (spec/60_exceptions.md R200); codes 5 to 7 are never produced and have no constructor. -/
inductive ErrKind where
  | noError
  | invalidArgument
  | truncatedInput
  | invalidOpcode
  | outOfBounds
deriving DecidableEq, Repr

/-- The two byte spaces (R32). -/
inductive Space where
  | src
  | dst
deriving DecidableEq, Repr

/-- One move of the host (spec/70_reset_and_hazards.md R233, R234; spec/10_state.md R26, R27), or a turn in which it
makes none. See notes/assumptions/6.md. -/
inductive HostMove where
  /-- The host makes no move: the engine has the turn. -/
  | rest
  /-- Power is applied anew, in any state (R26, R230). -/
  | powerOnReset
  /-- Read `STATE`, `STOP_REASON` and the error record, at any time (R234). Changes nothing. -/
  | poll
  /-- Read the descriptor registers, `DST_CAP` among them, and `DST` when no call is running (R25, R234). Changes nothing. -/
  | collect
  /-- Make these bytes available as the whole of `SRC` (R233 step 1). -/
  | supplySrc (bytes : List Byte)
  /-- Provide `DST` holding these bytes, the host's own, from offset 0 (R233 step 2). -/
  | supplyDst (bytes : List Byte)
  /-- Write the descriptor register `SRC_PRESENT` (R25). -/
  | writeSrcPresent (v : Bool)
  /-- Write the descriptor register `SRC_SIZE` (R25). -/
  | writeSrcSize (v : Nat)
  /-- Write the descriptor register `DST_PRESENT` (R25). -/
  | writeDstPresent (v : Bool)
  /-- Write the descriptor register `DST_CAP` (R25). -/
  | writeDstCap (v : Nat)
  /-- The command `START` (R27), with `SRC` and `DST` disjoint as R235 asks. -/
  | start
  /-- `START` by a host that breaks R235: `SRC` and `DST` overlap. -/
  | startWithOverlap
deriving DecidableEq, Repr

/-- Why the machine stops with a fault. Each stands for an access the spec calls a defect of itself, not a behaviour of
the hardware (spec/00_scope.md R11); no state that meets the model's invariant reaches one (R147). All are safe: the
model stops where the spec gives no behaviour. -/
inductive Fault where
  /-- `MemRead` outside its legal offsets: `SRC` at or above `IN_SIZE`, `DST` at or above `WC` (R11). Raised by
  `State.srcRead`, `State.dstRead`. Safe. -/
  | illegalRead (space : Space)
  /-- A read of a legal offset at which nothing was ever supplied or written (notes/assumptions/5.md). Raised by
  `State.srcRead`, `State.dstRead`. Safe. -/
  | absentByte (space : Space)
  /-- `MemWrite` to `DST` at an offset that is not `WC`, or not below `CAP` (R11). Raised by `State.dstWrite`. Safe. -/
  | illegalWrite
deriving DecidableEq, Repr

/-- Why a step has no meaning. -/
inductive Refusal where
  /-- An instruction without a meaning yet; raised by `exec`'s refused arms only (there are none). Safe. -/
  | notModelled (mnemonic : String)
  /-- A host move other than a poll or a power-on reset while `STATE = RUN`: the host has no such move (R236, U14).
  Raised by `State.hostAct`. Unsafe of a host that does it (spec/92_eei_decisions.md D13). -/
  | hostMoveDuringRun
  /-- `START` with overlapping buffers: "gives a call with overlapping buffers no meaning (refused)" (R66, R235, U13).
  Raised by `State.hostAct`. Safe. -/
  | overlappingBuffers
  /-- `START` with fewer bytes in `SRC` than `SRC_SIZE` declares (R237, U15). Raised by `State.start`. Safe. -/
  | sourceShorterThanDeclared
  /-- A host write of a number that does not fit a register of `AW` bits: no such write exists (R25). Raised by
  `State.hostAct`. Safe. -/
  | valueWiderThanRegister
deriving DecidableEq, Repr

/-- The state of one engine and of the host's plan. -/
structure State where
  /-- `RC`, the read cursor and program counter (R21, R22). -/
  rc : Nat
  /-- `WC`, the write cursor (R21, R23). -/
  wc : Nat
  /-- `PREV_DIST`, the carried distance (R21, R24). -/
  prevDist : Half
  /-- `IN_SIZE`, latched from `SRC_SIZE` by `START` (R21). -/
  inSize : Nat
  /-- `CAP`, latched from `DST_CAP` by `START` (R21). -/
  cap : Nat
  /-- `OPCODE`, the current token's opcode byte (R21). -/
  opcode : Byte
  /-- `OP_OFFSET`, that byte's offset in `SRC` (R21). -/
  opOffset : Nat
  /-- `OPTYPE`, the current token's type (R21, R111). -/
  optype : OpType
  /-- `E1`, the first extra byte (R21). -/
  e1 : Byte
  /-- `E2`, the second extra byte (R21). -/
  e2 : Byte
  /-- `LIT_LEN` (R21). -/
  litLen : Half
  /-- `MATCH_LEN` (R21). -/
  matchLen : Half
  /-- `SRC_PRESENT` (R25). -/
  srcPresent : Bool
  /-- `SRC_SIZE` (R25). -/
  srcSize : Nat
  /-- `DST_PRESENT` (R25). -/
  dstPresent : Bool
  /-- `DST_CAP`, in and out (R25, R28). -/
  dstCap : Nat
  /-- `STATE` (R25, R26). -/
  runState : RunState
  /-- `STOP_REASON` (R25, R30). -/
  stopReason : StopReason
  /-- `ERR_KIND` (R25, R200). -/
  errKind : ErrKind
  /-- `ERR_OPCODE` (R25). -/
  errOpcode : Byte
  /-- `ERR_OFFSET` (R25). -/
  errOffset : Nat
  /-- The compressed buffer `SRC` (R32). -/
  src : Memory
  /-- The uncompressed buffer `DST` (R32). -/
  dst : Memory
  /-- The MODEL's own field: the host's moves still to come, the next first; empty means the host rests for ever
  (notes/assumptions/6.md). -/
  schedule : List HostMove
deriving DecidableEq, Repr

/-- What one step answers. -/
abbrev Result := Host.Outcome State Fault Refusal

/-- Power-on reset (R34, R230). `STATE`, `STOP_REASON`, the error record and the two presence bits are the spec's;
every other register the spec leaves unspecified holds the value notes/assumptions/3.md names; both spaces list
nothing, and the host plans nothing. -/
def State.reset : State where
  rc := 0
  wc := 0
  prevDist := 0
  inSize := 0
  cap := 0
  opcode := 0
  opOffset := 0
  optype := .noOp
  e1 := 0
  e2 := 0
  litLen := 0
  matchLen := 0
  srcPresent := false
  srcSize := 0
  dstPresent := false
  dstCap := 0
  runState := .idle
  stopReason := .notStopped
  errKind := .noError
  errOpcode := 0
  errOffset := 0
  src := []
  dst := []
  schedule := []

end Sys2Proof.Machine
end

