-- ==== Sys2Proof/Machine/Ops.lean ====
section
/-! DEFINITION. The named operations the meanings are built from: the memory primitives of spec/00_scope.md R11, the
end of a call (`stop`, spec/41_decode_loop.md R127), taking a trap (`raise`, spec/60_exceptions.md R206; there is no
return from one, R208), the boundary guard (spec/42_boundary_guard.md R141 to R145), the literal copy unit
(spec/43_literal_copy_unit.md R150) and the back-reference replay engine (spec/44_replay_engine.md R155). -/

namespace Sys2Proof.Machine

/-- How the run of a token's pseudocode is cut short: by a trap, which is a next state, or by a fault of the model. -/
inductive Halt where
  | trap (s : State)
  | fault (f : Fault)
deriving DecidableEq, Repr

/-- `MemRead(SRC, off, 1)`, legal only below `IN_SIZE` (R11). -/
def State.srcRead (s : State) (off : Nat) : Except Fault Byte :=
  if off < s.inSize then
    match s.src.read off with
    | some b => .ok b
    | none => .error (.absentByte .src)
  else .error (.illegalRead .src)

/-- `MemRead(DST, off, 1)`, legal only below `WC` (R11). -/
def State.dstRead (s : State) (off : Nat) : Except Fault Byte :=
  if off < s.wc then
    match s.dst.read off with
    | some b => .ok b
    | none => .error (.absentByte .dst)
  else .error (.illegalRead .dst)

/-- `MemWrite(DST, off, 1, v)`, legal only at `off = WC < CAP` (R11). -/
def State.dstWrite (s : State) (off : Nat) (v : Byte) : Except Fault State :=
  if off = s.wc ∧ off < s.cap then .ok { s with dst := s.dst.write off v }
  else .error .illegalWrite

/-- `stop(reason)`, the successful end of a call (R28, R127). -/
def State.stop (s : State) (reason : StopReason) : State :=
  { s with dstCap := s.wc, stopReason := reason, runState := .done }

/-- `raise K(op, off)`, the trap entry (R29, R206): the error record and `STATE`, nothing else. -/
def State.raise (s : State) (k : ErrKind) (op : Byte) (off : Nat) : State :=
  { s with errKind := k, errOpcode := op, errOffset := off, runState := .fault }

/-- `raise K(OPCODE, OP_OFFSET)`, the record every token's trap writes (R200). -/
def State.raiseToken (s : State) (k : ErrKind) : State := s.raise k s.opcode s.opOffset

/-- The extra-byte guard passes (R141): all `n` extra bytes are there. -/
abbrev State.extraFits (s : State) (n : Nat) : Prop := n ≤ s.inSize - s.rc

/-- The literal guard passes (R142): the payload is all in `SRC` and fits in `DST`. -/
abbrev State.literalFits (s : State) : Prop :=
  s.litLen.toNat ≤ s.inSize - s.rc ∧ s.litLen.toNat ≤ s.cap - s.wc

/-- The match guard passes: the distance reaches no further back than offset 0 (R143), is not zero (R144), and the
match fits in `DST` (R145). -/
abbrev State.matchFits (s : State) : Prop :=
  s.prevDist.toNat ≤ s.wc ∧ s.prevDist.toNat ≠ 0 ∧ s.matchLen.toNat ≤ s.cap - s.wc

/-- `LiteralCopy()` (R150): `n` bytes, one at a time, both cursors advancing. -/
def literalCopy : Nat → State → Except Fault State
  | 0, s => .ok s
  | n + 1, s =>
    match s.srcRead s.rc with
    | .error f => .error f
    | .ok b =>
      match s.dstWrite s.wc b with
      | .error f => .error f
      | .ok t => literalCopy n { t with rc := s.rc + 1, wc := s.wc + 1 }

/-- `Replay()` (R155): `n` bytes, one at a time, each write completing before the next read (R156). -/
def replay : Nat → State → Except Fault State
  | 0, s => .ok s
  | n + 1, s =>
    match s.dstRead (s.wc - s.prevDist.toNat) with
    | .error f => .error f
    | .ok b =>
      match s.dstWrite s.wc b with
      | .error f => .error f
      | .ok t => replay n { t with wc := s.wc + 1 }

/-- Step 6 of the loop (R120, R128): nothing for a literal length of 0, else the guard, then the copy. -/
def literalPhase (s : State) : Except Halt State :=
  if s.litLen = 0 then .ok s
  else if s.literalFits then
    match literalCopy s.litLen.toNat s with
    | .ok t => .ok t
    | .error f => .error (.fault f)
  else .error (.trap (s.raiseToken .outOfBounds))

/-- Step 7 of the loop (R120, R128): nothing for a match length of 0, else the guard, then the replay. -/
def matchPhase (s : State) : Except Halt State :=
  if s.matchLen = 0 then .ok s
  else if s.matchFits then
    match replay s.matchLen.toNat s with
    | .ok t => .ok t
    | .error f => .error (.fault f)
  else .error (.trap (s.raiseToken .outOfBounds))

/-- What a step answers when its pseudocode has run: a trap is a next state. -/
def settle : Except Halt State → Result
  | .ok s => .next s
  | .error (.trap s) => .next s
  | .error (.fault f) => .fault f

/-- `Extract` writes `LIT_LEN` and `MATCH_LEN` (R125); `PREV_DIST` is written beside it by the distance-bearing types. -/
def State.extract (s : State) (lit mat : Half) : State := { s with litLen := lit, matchLen := mat }

/-- A distance-bearing token overwrites the carried distance during extraction (R24, R160). -/
def State.carry (s : State) (d : Half) : State := { s with prevDist := d }

/-- Steps 6 and 7 (R128): the literal first, then the match at the write cursor the literal left. -/
def runCopies (s : State) : Result :=
  match literalPhase s with
  | .ok t => settle (matchPhase t)
  | .error h => settle (.error h)

end Sys2Proof.Machine
end

