-- ==== Sys2Proof/Machine/Control.lean ====
section
/-! DEFINITION. The three control opcodes (spec/48_control_opcodes.md). Their byte is already consumed and their
lengths already 0 by the fetch (spec/41_decode_loop.md R123). -/

namespace Sys2Proof.Machine

/-- END_OF_STREAM (R180): `stop(EOS)`. -/
def execEndOfStream (s : State) : Result := .next (s.stop .eos)

/-- NONE (R181): nothing beyond the fetch. -/
def execNoOp (s : State) : Result := .next s

/-- INVALID (R182): `raise InvalidOpcode(OPCODE, OP_OFFSET)`. -/
def execInvalid (s : State) : Result := .next (s.raiseToken .invalidOpcode)

end Sys2Proof.Machine
end

