-- ==== Sys2Proof/Machine/Operands.lean ====
section
/-! DEFINITION. What each token's fields stand for: `literal_length`, `match_length` and `distance` as
spec/30_encoding.md R84 assembles them (`zext_16` and one addition), and their union over all tokens. -/

namespace Sys2Proof.Machine

/-- `LIT_LEN` of a distance token: the 2-bit field, widened (R161 to R164). -/
def shortLiteral (lit : BitVec 2) : Half := lit.setWidth 16

/-- `MATCH_LEN` of DISTANCE_LARGE, DISTANCE_SMALL and DISTANCE_PREVIOUS: the 3-bit field plus 3 (R161, R163, R164). -/
def shortMatch (m : BitVec 3) : Half := m.setWidth 16 + 3

/-- `MATCH_LEN` of DISTANCE_MEDIUM: the 5-bit field plus 3 (R162). -/
def mediumMatch (m : BitVec 5) : Half := m.setWidth 16 + 3

/-- The length of LITERAL_LARGE and MATCH_LARGE: the extra byte plus 16 (R170, R176). -/
def largeLength (n : BitVec 8) : Half := n.setWidth 16 + 16

/-- The length of LITERAL_SMALL and MATCH_SMALL: the opcode's low four bits (R171, R177). -/
def smallLength (n : BitVec 4) : Half := n.setWidth 16

/-- The distance of DISTANCE_MEDIUM, 14 bits widened (R162). -/
def mediumDistance (d : BitVec 14) : Half := d.setWidth 16

/-- The distance of DISTANCE_SMALL, 11 bits widened (R163). -/
def smallDistance (d : BitVec 11) : Half := d.setWidth 16

/-- `literal_length` of any token (R84); 0 where the type yields none (R123). -/
def literalLength : Instr → Half
  | .distanceLarge lit _ _ => shortLiteral lit
  | .distanceMedium lit _ _ => shortLiteral lit
  | .distanceSmall lit _ _ => shortLiteral lit
  | .distancePrevious lit _ => shortLiteral lit
  | .literalLarge n => largeLength n
  | .literalSmall n => smallLength n
  | .matchLarge _ => 0
  | .matchSmall _ => 0
  | .endOfStream => 0
  | .noOp _ => 0
  | .invalid _ => 0

/-- `match_length` of any token (R84); 0 where the type yields none (R123). -/
def matchLength : Instr → Half
  | .distanceLarge _ m _ => shortMatch m
  | .distanceMedium _ m _ => mediumMatch m
  | .distanceSmall _ m _ => shortMatch m
  | .distancePrevious _ m => shortMatch m
  | .literalLarge _ => 0
  | .literalSmall _ => 0
  | .matchLarge n => largeLength n
  | .matchSmall n => smallLength n
  | .endOfStream => 0
  | .noOp _ => 0
  | .invalid _ => 0

/-- The distance a token carries of its own, if its type is distance-bearing (R24, R84). -/
def ownDistance : Instr → Option Half
  | .distanceLarge _ _ d => some d
  | .distanceMedium _ _ d => some (mediumDistance d)
  | .distanceSmall _ _ d => some (smallDistance d)
  | .distancePrevious _ _ => none
  | .literalLarge _ => none
  | .literalSmall _ => none
  | .matchLarge _ => none
  | .matchSmall _ => none
  | .endOfStream => none
  | .noOp _ => none
  | .invalid _ => none

end Sys2Proof.Machine
end

