-- ==== Sys2Proof/Machine/Distance.lean ====
section
/-! DEFINITION. The four distance opcodes (spec/45_distance_opcodes.md). A meaning runs on the state the fetch left
(`OPCODE`, `OP_OFFSET`, `OPTYPE`, `E1`, `E2` written, `RC` after the extra bytes): extraction, then R160's effect. -/

namespace Sys2Proof.Machine

/-- DISTANCE_LARGE (R161). -/
def execDistanceLarge (lit : BitVec 2) (m : BitVec 3) (d : BitVec 16) (s : State) : Result :=
  runCopies ((s.extract (shortLiteral lit) (shortMatch m)).carry d)

/-- DISTANCE_MEDIUM (R162). -/
def execDistanceMedium (lit : BitVec 2) (m : BitVec 5) (d : BitVec 14) (s : State) : Result :=
  runCopies ((s.extract (shortLiteral lit) (mediumMatch m)).carry (mediumDistance d))

/-- DISTANCE_SMALL (R163). -/
def execDistanceSmall (lit : BitVec 2) (m : BitVec 3) (d : BitVec 11) (s : State) : Result :=
  runCopies ((s.extract (shortLiteral lit) (shortMatch m)).carry (smallDistance d))

/-- DISTANCE_PREVIOUS (R164): the carried distance, unchanged. -/
def execDistancePrevious (lit : BitVec 2) (m : BitVec 3) (s : State) : Result :=
  runCopies (s.extract (shortLiteral lit) (shortMatch m))

end Sys2Proof.Machine
end

