-- ==== Sys2Proof/Machine/Literal.lean ====
section
/-! DEFINITION. The two literal opcodes (spec/46_literal_opcodes.md): a literal and no match; `PREV_DIST` is neither
read nor changed. -/

namespace Sys2Proof.Machine

/-- LITERAL_LARGE (R170). -/
def execLiteralLarge (n : BitVec 8) (s : State) : Result := runCopies (s.extract (largeLength n) 0)

/-- LITERAL_SMALL (R171). -/
def execLiteralSmall (n : BitVec 4) (s : State) : Result := runCopies (s.extract (smallLength n) 0)

end Sys2Proof.Machine
end

