-- ==== Sys2Proof/Machine/Match.lean ====
section
/-! DEFINITION. The two match opcodes (spec/47_match_opcodes.md): a match at the carried distance (R175) and no
literal. -/

namespace Sys2Proof.Machine

/-- MATCH_LARGE (R176). -/
def execMatchLarge (n : BitVec 8) (s : State) : Result := runCopies (s.extract 0 (largeLength n))

/-- MATCH_SMALL (R177). -/
def execMatchSmall (n : BitVec 4) (s : State) : Result := runCopies (s.extract 0 (smallLength n))

end Sys2Proof.Machine
end

