-- ==== Sys2Proof/Machine/Dispatch.lean ====
section
/-! DEFINITION. The meaning of every token, one arm per constructor of Instr. -/

namespace Sys2Proof.Machine

-- Extraction and the effect of steps 4 to 7 of spec/41_decode_loop.md R120, on the state the fetch left.
def exec (i : Instr) (s : State) : Host.Outcome State Fault Refusal :=
  match i with
  | .distanceLarge lit m d => Sys2Proof.Machine.execDistanceLarge lit m d s
  | .distanceMedium lit m d => Sys2Proof.Machine.execDistanceMedium lit m d s
  | .distanceSmall lit m d => Sys2Proof.Machine.execDistanceSmall lit m d s
  | .distancePrevious lit m => Sys2Proof.Machine.execDistancePrevious lit m s
  | .literalLarge n => Sys2Proof.Machine.execLiteralLarge n s
  | .literalSmall n => Sys2Proof.Machine.execLiteralSmall n s
  | .matchLarge n => Sys2Proof.Machine.execMatchLarge n s
  | .matchSmall n => Sys2Proof.Machine.execMatchSmall n s
  | .endOfStream => Sys2Proof.Machine.execEndOfStream s
  | .noOp _ => Sys2Proof.Machine.execNoOp s
  | .invalid _ => Sys2Proof.Machine.execInvalid s

end Sys2Proof.Machine
end

