-- ==== Sys2Proof/Machine/Fetch.lean ====
section
/-! DEFINITION. The decode loop (spec/41_decode_loop.md): the stop conditions (R121), fetch and classify (R122, R123),
the extra bytes (R124), then the token's meaning. -/

namespace Sys2Proof.Machine

/-- Step 2 (R122, R123): the opcode byte is read and classified, `RC` advances by one, the token registers are cleared. -/
def fetchOpcode (s : State) : Except Fault State :=
  match s.srcRead s.rc with
  | .error f => .error f
  | .ok b =>
    .ok { s with opOffset := s.rc, opcode := b, rc := s.rc + 1, optype := classify b,
                 e1 := 0, e2 := 0, litLen := 0, matchLen := 0 }

/-- The extra bytes into `E1` and `E2`, `E1` first (R59, R124). A type has at most two. -/
def readExtra (n : Nat) (s : State) : Except Fault State :=
  match n with
  | 0 => .ok s
  | 1 =>
    match s.srcRead s.rc with
    | .error f => .error f
    | .ok b => .ok { s with e1 := b, rc := s.rc + 1 }
  | _ =>
    match s.srcRead s.rc with
    | .error f => .error f
    | .ok b =>
      match s.srcRead (s.rc + 1) with
      | .error f => .error f
      | .ok c => .ok { s with e1 := b, e2 := c, rc := s.rc + 2 }

/-- Step 3, first half (R124): the guard of R141, evaluated after the opcode byte is consumed, then the extra bytes. -/
def fetchExtra (s : State) : Except Halt State :=
  if s.extraFits (extraBytes s.optype) then
    match readExtra (extraBytes s.optype) s with
    | .ok t => .ok t
    | .error f => .error (.fault f)
  else .error (.trap (s.raiseToken .truncatedInput))

/-- The token that stands in the token registers. -/
def State.token (s : State) : Instr := assemble s.opcode s.e1 s.e2

/-- Steps 2 to 7 of one iteration (R120). -/
def tokenStep (s : State) : Result :=
  match fetchOpcode s with
  | .error f => .fault f
  | .ok t =>
    match fetchExtra t with
    | .error h => settle (.error h)
    | .ok u => exec u.token u

/-- One iteration of the loop in `RUN` (R120, R121): input end is tested first (R30, D11). -/
def runStep (s : State) : Result :=
  if s.rc = s.inSize then .next (s.stop .inputEnd)
  else if s.wc = s.cap then .next (s.stop .outputFull)
  else tokenStep s

/-- The engine's turn: one iteration in `RUN`; in `IDLE`, `DONE` and `FAULT` it has no step and the state stays as it
is (R26, R206, R225; notes/assumptions/7.md). -/
def engineStep (s : State) : Result :=
  match s.runState with
  | .run => runStep s
  | .idle => .next s
  | .done => .next s
  | .fault => .next s

/-- The longest token: LITERAL_LARGE with `E1 = 0xFF` (R83). -/
def longestToken : Nat := 273

/-- The largest output of one token (R131). -/
def longestOutput : Nat := 271

/-- The state in which the next step fetches and runs exactly the token whose bytes are numbered in `w` (bits above
`nbits` zero): a call is running, the bytes stand in `SRC` at `RC`, the input reaches past them, the output has room,
and the host rests (notes/assumptions/12.md). Nothing else is changed. -/
def State.loadToken (s : State) (nbits w : Nat) : State :=
  { s with
    runState := .run
    schedule := []
    src := s.src.writeRun s.rc (bytesOfWord longestToken (w % 2 ^ nbits))
    inSize := max s.inSize (s.rc + longestToken)
    cap := max s.cap (s.wc + longestOutput) }

end Sys2Proof.Machine
end

