-- ==== Sys2Proof/Machine/Flags.lean ====
section
/-! DEFINITION. The engine has no flags and no condition codes (spec/10_state.md R25): no token sets a bit that a
later token reads. Its only status bits are `STATE`, `STOP_REASON` and `ERR_KIND`; this file gives the numbers the host
reads them as, and the 4-bit code of `OPTYPE`, which the host never sees. -/

namespace Sys2Proof.Machine

/-- The 2-bit code of `STATE` (R26). -/
def RunState.code : RunState → BitVec 2
  | .idle => 0
  | .run => 1
  | .done => 2
  | .fault => 3

/-- The 2-bit code of `STOP_REASON` (R30). -/
def StopReason.code : StopReason → BitVec 2
  | .notStopped => 0
  | .eos => 1
  | .outputFull => 2
  | .inputEnd => 3

/-- The 3-bit code of `ERR_KIND` (spec/60_exceptions.md R200). -/
def ErrKind.code : ErrKind → BitVec 3
  | .noError => 0
  | .invalidArgument => 1
  | .truncatedInput => 2
  | .invalidOpcode => 3
  | .outOfBounds => 4

/-- The 4-bit code of `OPTYPE` (spec/40_classifier.md R111). -/
def opTypeCode : OpType → BitVec 4
  | .distanceLarge => 0
  | .distanceMedium => 1
  | .distanceSmall => 2
  | .distancePrevious => 3
  | .literalLarge => 4
  | .literalSmall => 5
  | .matchLarge => 6
  | .matchSmall => 7
  | .endOfStream => 8
  | .noOp => 9
  | .invalid => 10

end Sys2Proof.Machine
end

