-- ==== Sys2Proof/Machine/HostPort.lean ====
section
/-! DEFINITION. The host's side (spec/10_state.md R25 to R29, R34; spec/70_reset_and_hazards.md R230 to R237): the
command `START`, power-on reset, the descriptor writes, what the host reads, and whose turn it is. -/

namespace Sys2Proof.Machine

/-- `START`'s descriptor check (R27, R202): both references present, both sizes at most `MAX_SIZE`. -/
abbrev State.descriptorValid (s : State) : Prop :=
  s.srcPresent = true ∧ s.dstPresent = true ∧ s.srcSize ≤ Config.maxSize ∧ s.dstCap ≤ Config.maxSize

/-- The first line of `START` (R27): the record of the last call is cleared. -/
def State.clearRecord (s : State) : State :=
  { s with errKind := .noError, errOpcode := 0, errOffset := 0, stopReason := .notStopped }

/-- The rest of a valid `START` (R27, R231): sizes latched, cursors, carried distance and token cleared, `STATE = RUN`. -/
def State.beginCall (s : State) : State :=
  { s with
    inSize := s.srcSize
    cap := s.dstCap
    rc := 0
    wc := 0
    prevDist := 0
    opcode := 0
    opOffset := 0
    optype := .noOp
    e1 := 0
    e2 := 0
    litLen := 0
    matchLen := 0
    runState := .run }

/-- `START` (R27), issued with `STATE` not `RUN`. A valid descriptor that declares more bytes than `SRC` holds is
refused (R237; notes/assumptions/10.md). -/
def State.start (s : State) : Result :=
  if s.descriptorValid then
    if s.src.covers s.srcSize then .next s.clearRecord.beginCall
    else .refused .sourceShorterThanDeclared
  else .next (s.clearRecord.raise .invalidArgument 0 0)

/-- Power-on reset as an event (R26, R34, R230): every register as after reset; the buffers and the plan are the
host's and stay (notes/assumptions/4.md). -/
def State.powerOn (s : State) : State :=
  { State.reset with src := s.src, dst := s.dst, schedule := s.schedule }

/-- A move the host has only when no call is running (R25, R236). -/
def State.unlessRunning (s : State) (r : Result) : Result :=
  if s.runState = .run then .refused .hostMoveDuringRun else r

/-- A descriptor write of `AW` bits (R25; notes/assumptions/11.md). -/
def ifFits (v : Nat) (s : State) : Result :=
  if v < 2 ^ Config.aw then .next s else .refused .valueWiderThanRegister

/-- One turn: the host's move, or, when the host rests, the engine's step. -/
def State.hostAct (s : State) (m : HostMove) : Result :=
  match m with
  | .rest => engineStep s
  | .powerOnReset => .next s.powerOn
  | .poll => .next s
  | .collect => s.unlessRunning (.next s)
  | .supplySrc bs => s.unlessRunning (.next { s with src := Memory.ofBytes bs })
  | .supplyDst bs => s.unlessRunning (.next { s with dst := Memory.ofBytes bs })
  | .writeSrcPresent v => s.unlessRunning (.next { s with srcPresent := v })
  | .writeSrcSize v => s.unlessRunning (ifFits v { s with srcSize := v })
  | .writeDstPresent v => s.unlessRunning (.next { s with dstPresent := v })
  | .writeDstCap v => s.unlessRunning (ifFits v { s with dstCap := v })
  | .start => s.unlessRunning s.start
  | .startWithOverlap => s.unlessRunning (.refused .overlappingBuffers)

/-- The move whose turn it is and the state with that move taken off the plan; an empty plan means the host rests. -/
def State.turn (s : State) : HostMove × State :=
  match s.schedule with
  | [] => (.rest, s)
  | m :: ms => (m, { s with schedule := ms })

/-- What a poll shows: the codes of `STATE`, `STOP_REASON` and `ERR_KIND`, `ERR_OPCODE` and `ERR_OFFSET` (R25, R234). -/
structure HostStatus where
  stateCode : BitVec 2
  stopReasonCode : BitVec 2
  errKindCode : BitVec 3
  errOpcode : Byte
  errOffset : Nat
deriving DecidableEq, Repr

/-- Read the result registers, at any time (R234). -/
def State.hostStatus (s : State) : HostStatus where
  stateCode := s.runState.code
  stopReasonCode := s.stopReason.code
  errKindCode := s.errKind.code
  errOpcode := s.errOpcode
  errOffset := s.errOffset

/-- The four descriptor registers as the host reads them (R25). -/
structure HostDescriptor where
  srcPresent : Bool
  srcSize : Nat
  dstPresent : Bool
  dstCap : Nat
deriving DecidableEq, Repr

/-- Read the descriptor registers: the host may when `STATE` is not `RUN` (R25). -/
def State.hostDescriptor (s : State) : Option HostDescriptor :=
  if s.runState = .run then none else some ⟨s.srcPresent, s.srcSize, s.dstPresent, s.dstCap⟩

/-- What the host collects when `STATE = DONE`: `DST_CAP` and `DST[0 .. DST_CAP-1]` (R233 step 6). In any other state
the host is given nothing (R207, D17). -/
def State.hostResult (s : State) : Option (Nat × List (Option Byte)) :=
  if s.runState = .done then some (s.dstCap, (List.range s.dstCap).map s.dst.read) else none

end Sys2Proof.Machine
end

