-- ==== Sys2Proof/Machine/Step.lean ====
section
/-! DEFINITION. One step of the whole machine: the host's next move, or, when the host rests, one iteration of the
engine's loop (spec/41_decode_loop.md R120, R132; notes/assumptions/6.md). -/

namespace Sys2Proof.Machine

/-- One step: the turn, then what whoever has it does. -/
def step (s : State) : Host.Outcome State Fault Refusal := s.turn.2.hostAct s.turn.1

/-- The state with an instruction stored where the next step fetches it, and the next step running it. -/
def State.withFetchWord (s : State) (nbits w : Nat) : State := s.loadToken nbits w

end Sys2Proof.Machine
end

