-- ==== Sys2Proof/Safety.lean ====
section
/-! DEFINITION. What counts as a sound state, in the terms the statements use: the invariants of spec/10_state.md R35
and what they rest on. -/

namespace Sys2Proof.Machine

/-- Every byte of the call's input is there (R237). -/
def State.SrcReadable (s : State) : Prop := ∀ off, off < s.inSize → (s.src.read off).isSome

/-- Every byte of `DST` below `WC` is there: it has been written (R35). -/
def State.DstReadable (s : State) : Prop := ∀ off, off < s.wc → (s.dst.read off).isSome

/-- The invariant of a running call at the top of an iteration (R35): the cursors within the buffers, the carried
distance never beyond the output, and every byte the engine may read present. -/
def State.CallInv (s : State) : Prop :=
  s.rc ≤ s.inSize ∧ s.wc ≤ s.cap ∧ s.prevDist.toNat ≤ s.wc ∧ s.SrcReadable ∧ s.DstReadable

/-- The invariant of every step: both spaces in canonical form, and a running call sound. -/
def State.Inv (s : State) : Prop :=
  s.src.wf ∧ s.dst.wf ∧ (s.runState = .run → s.CallInv)

/-- Every register of `AW` bits holds a value of that width (R21, R25), and the sizes a running call has latched are
within `MAX_SIZE` (R35). -/
def State.SizeInv (s : State) : Prop :=
  s.rc < 2 ^ Config.aw ∧ s.wc < 2 ^ Config.aw ∧ s.inSize < 2 ^ Config.aw ∧ s.cap < 2 ^ Config.aw ∧
  s.opOffset < 2 ^ Config.aw ∧ s.srcSize < 2 ^ Config.aw ∧ s.dstCap < 2 ^ Config.aw ∧ s.errOffset < 2 ^ Config.aw ∧
  (s.runState = .run → s.inSize ≤ Config.maxSize ∧ s.cap ≤ Config.maxSize)

/-- The result registers speak of the last call only (R26, R28, R29, R30): an error kind is recorded exactly in `FAULT`,
a stop reason exactly in `DONE`, and without an error the record is 0. -/
def State.RecordInv (s : State) : Prop :=
  (s.runState = .fault ↔ s.errKind ≠ .noError) ∧ (s.runState = .done ↔ s.stopReason ≠ .notStopped) ∧
  (s.errKind = .noError → s.errOpcode = 0 ∧ s.errOffset = 0)

/-- The conditions under which a token of literal length `lit`, match length `mat` and distance `dist` executes
normally (R142 to R145, R150, R155), with every byte it reads present. -/
def State.CanCopy (s : State) (lit mat : Nat) (dist : Half) : Prop :=
  lit ≤ s.inSize - s.rc ∧ lit ≤ s.cap - s.wc ∧
  (∀ k, k < lit → (s.src.read (s.rc + k)).isSome) ∧
  (mat ≠ 0 →
    dist.toNat ≤ s.wc + lit ∧ dist.toNat ≠ 0 ∧ mat ≤ s.cap - (s.wc + lit) ∧
    ∀ off, s.wc + lit - dist.toNat ≤ off → off < s.wc → (s.dst.read off).isSome)

/-- The whole effect of a token of literal length `lit`, match length `mat` and distance `dist` that completes
(R128, R151, R157): a next state whose registers are the old ones but for the lengths, the carried distance and the two
cursors, with the payload stored at `WC`, the match stored after it as the last `dist` bytes of the output repeated
cyclically, and every other byte of `DST` as before. -/
def State.CompletesCopy (s : State) (lit mat : Nat) (dist : Half) (r : Result) : Prop :=
  ∃ t, r = .next t ∧ t.litLen.toNat = lit ∧ t.matchLen.toNat = mat ∧
    t = { s with litLen := t.litLen, matchLen := t.matchLen, prevDist := dist,
                 rc := s.rc + lit, wc := s.wc + lit + mat, dst := t.dst } ∧
    (∀ k, k < lit → t.dst.read (s.wc + k) = s.src.read (s.rc + k)) ∧
    (∀ k, k < mat → t.dst.read (s.wc + lit + k) = t.dst.read (s.wc + lit - dist.toNat + k % dist.toNat)) ∧
    (∀ off, off < s.wc ∨ s.wc + lit + mat ≤ off → t.dst.read off = s.dst.read off)

/-- The state in which a token's meaning runs, given the token and the bytes at `RC` it was decoded from (R122 to R124):
the opcode latched with its offset and type, the extra bytes the type has in `E1` and `E2`, the lengths cleared, `RC`
past the extra bytes. -/
def State.fetched (s : State) (i : Instr) (bytes : List Byte) : State :=
  { s with
    opOffset := s.rc
    opcode := bytes.getD 0 0
    optype := i.opType
    e1 := if 1 ≤ extraBytes i.opType then bytes.getD 1 0 else 0
    e2 := if 2 ≤ extraBytes i.opType then bytes.getD 2 0 else 0
    litLen := 0
    matchLen := 0
    rc := s.rc + 1 + extraBytes i.opType }

/-- These bytes stand in `SRC` from `RC` on, all below `IN_SIZE`. -/
def State.HasBytes (s : State) (bytes : List Byte) : Prop :=
  s.rc + bytes.length ≤ s.inSize ∧ ∀ k, k < bytes.length → s.src.read (s.rc + k) = bytes[k]?

/-- It is the engine's turn, a call is running and no stop condition holds (R120, R121): the token at `RC` is fetched.
`s0` is the state with the host's turn of rest taken off its plan. -/
def State.Fetching (s s0 : State) : Prop :=
  s.turn = (.rest, s0) ∧ s.runState = .run ∧ s.rc ≠ s.inSize ∧ s.wc ≠ s.cap

/-- Two states that differ in nothing but the bytes of `DST` at `WC` and above, which the call has not written (R58). -/
def State.SameCall (s t : State) : Prop :=
  t = { s with dst := t.dst } ∧ ∀ off, off < s.wc → t.dst.read off = s.dst.read off

/-- The moves the host has while a call runs (R26, R236): to rest, to poll, and to cut the power. -/
def HostMove.allowedInRun : HostMove → Bool
  | .rest => true
  | .powerOnReset => true
  | .poll => true
  | .collect => false
  | .supplySrc _ => false
  | .supplyDst _ => false
  | .writeSrcPresent _ => false
  | .writeSrcSize _ => false
  | .writeDstPresent _ => false
  | .writeDstCap _ => false
  | .start => false
  | .startWithOverlap => false

end Sys2Proof.Machine
end

