-- ==== Sys2Proof/WellFormed.lean ====
section
/-! DEFINITION. Which terms of Instr are tokens the format can encode: the pairs of spec/30_encoding.md R87, the
distance range of R84, the non-zero lengths of R81, and the byte lists of R85. -/

namespace Sys2Proof

/-- The encodable pairs of R87 for DISTANCE_SMALL, DISTANCE_LARGE and (with `L >= 1`) DISTANCE_PREVIOUS, on the field
`M - 3`: `L = 0` with `M = 3..10`, `L = 1` with `3..8`, `L = 2` with `3..6`, `L = 3` with `3..4`. -/
def pairEncodable (lit : BitVec 2) (m : BitVec 3) : Bool :=
  m.toNat + 2 * lit.toNat ≤ 7

/-- The 37 byte values of INVALID as R85 lists them: 0x1E, 0x26, 0x2E, 0x36, 0x3E, 0x70 to 0x7F, 0xD0 to 0xDF. -/
def isInvalidByte (b : Byte) : Bool :=
  b == 0x1E || b == 0x26 || b == 0x2E || b == 0x36 || b == 0x3E
    || (0x70 ≤ b.toNat && b.toNat ≤ 0x7F) || (0xD0 ≤ b.toNat && b.toNat ≤ 0xDF)

/-- The check of one token. -/
def Instr.check : Instr → Bool
  | .distanceLarge lit m _ => pairEncodable lit m
  | .distanceMedium _ _ _ => true
  | .distanceSmall lit m d => pairEncodable lit m && d.toNat ≤ 1535
  | .distancePrevious lit m => lit != 0 && pairEncodable lit m
  | .literalLarge _ => true
  | .literalSmall n => n != 0
  | .matchLarge _ => true
  | .matchSmall n => n != 0
  | .endOfStream => true
  | .noOp b => b == 0x0E || b == 0x16
  | .invalid b => isInvalidByte b

/-- A token the format can encode. -/
abbrev Instr.WellFormed (i : Instr) : Prop := i.check = true

end Sys2Proof
end

