-- ==== Sys2Proof/Certificates/Slice0/Obligations.lean ====
section
/-! DEFINITION. The statements for the provers. Each docstring names the rule of spec/ it formalises. -/

open Sys2Proof Sys2Proof.Machine

/-! ### Encoding and classifier -/

/-- R112, R115: the checks a model of the classifier table must pass, (a) to (e). Which unlisted bytes are DISTANCE_LARGE
is the spec's own decision D15 (notes/assumptions/14.md). -/
def Obligations.ClassifierPassesItsChecks : Prop :=
  (classTable.length = 256 ∧ classTable.count .distanceLarge = 20 ∧ classTable.count .distanceMedium = 32 ∧
    classTable.count .distanceSmall = 120 ∧ classTable.count .distancePrevious = 12 ∧
    classTable.count .literalLarge = 1 ∧ classTable.count .literalSmall = 15 ∧ classTable.count .matchLarge = 1 ∧
    classTable.count .matchSmall = 15 ∧ classTable.count .endOfStream = 1 ∧ classTable.count .noOp = 2 ∧
    classTable.count .invalid = 37) ∧
  (∀ b : Byte, (0x70 ≤ b.toNat ∧ b.toNat ≤ 0x7F) ∨ (0xD0 ≤ b.toNat ∧ b.toNat ≤ 0xDF) → classify b = .invalid) ∧
  (classify 0xE1 = .literalSmall ∧ classify 0x06 = .endOfStream) ∧
  (∀ b : Byte,
    (classify b = .distanceSmall → (Byte.field b 0 3).toNat ≤ 5) ∧
    (classify b = .distancePrevious → (Byte.field b 0 3).toNat = 6 ∧ Byte.field b 6 2 ≠ 0) ∧
    (classify b = .distanceLarge → (Byte.field b 0 3).toNat = 7)) ∧
  (∀ b : Byte, classify b = classifyArith b)

/-- Words written out from the field tables of R81 and the examples of 95_test_vectors.md V2 decode to their tokens. As V2
flags, three words rest on the spec's own decisions: that 0x8F and 0x3F are DISTANCE_LARGE and 0x4A DISTANCE_SMALL is D15
(notes/assumptions/14.md), and the order of the two distance bytes of DISTANCE_LARGE is D12 (notes/assumptions/13.md).
The source names 0x07 itself. -/
def Obligations.WrittenWordsDecode : Prop :=
  decode [0x8F, 0x04, 0x00] = .ok (.distanceLarge 2 1 4, []) ∧
  decode [0x3F, 0x34, 0x12] = .ok (.distanceLarge 0 7 0x1234, []) ∧
  decode [0xAC, 0x0D, 0x00] = .ok (.distanceMedium 1 17 3, []) ∧
  decode [0x4A, 0x02, 0x78] = .ok (.distanceSmall 1 1 514, [0x78]) ∧
  decode [0xCE] = .ok (.distancePrevious 3 1, []) ∧
  decode [0xE0, 0xFF] = .ok (.literalLarge 255, []) ∧
  decode [0xEF] = .ok (.literalSmall 15, []) ∧
  decode [0xF0, 0x04] = .ok (.matchLarge 4, []) ∧
  decode [0xF5] = .ok (.matchSmall 5, []) ∧
  decode [0x06] = .ok (.endOfStream, []) ∧
  decode [0x16] = .ok (.noOp 0x16, []) ∧
  decode [0xD5] = .ok (.invalid 0xD5, []) ∧
  decode [] = .error .noByte ∧
  decode [0x07, 0x01] = .error .truncated

/-- R81, R84, R87, R93: for every well-formed token, with every operand at every value the encoding admits, decoding its
encoding gives the token back and leaves what follows untouched. -/
def Obligations.DecodeOfEncodeIsTheToken : Prop :=
  ∀ (i : Instr) (rest : List Byte), i.WellFormed → decode (encode i ++ rest) = .ok (i, rest)

/-- R85, R92: the other direction. What decodes is a well-formed token, and its encoding is the bytes it was read from:
each byte string has one meaning, and no encodable token is left out. -/
def Obligations.EncodeOfDecodeIsTheBytes : Prop :=
  ∀ (bytes : List Byte) (i : Instr) (rest : List Byte),
    decode bytes = .ok (i, rest) → i.WellFormed ∧ encode i ++ rest = bytes

/-- R84: how each token value is assembled from the opcode and extra bytes, with its range, type by type, in natural
numbers (`OPCODE[7:6]` is the byte divided by 64, and so on). The byte order of DISTANCE_LARGE is the spec's own decision
D12 (notes/assumptions/13.md). -/
def Obligations.FieldsAssembleAsTabled : Prop :=
  ∀ (op e1 e2 : Byte) (i : Instr), i = assemble op e1 e2 →
    (classify op = .distanceSmall →
      (literalLength i).toNat = op.toNat / 64 ∧ (matchLength i).toNat = op.toNat / 8 % 8 + 3 ∧
      (ownDistance i).map BitVec.toNat = some (op.toNat % 8 * 256 + e1.toNat) ∧
      (literalLength i).toNat ≤ 3 ∧ 3 ≤ (matchLength i).toNat ∧ (matchLength i).toNat ≤ 10 ∧
      op.toNat % 8 * 256 + e1.toNat ≤ 1535) ∧
    (classify op = .distanceLarge →
      (literalLength i).toNat = op.toNat / 64 ∧ (matchLength i).toNat = op.toNat / 8 % 8 + 3 ∧
      (ownDistance i).map BitVec.toNat = some (e2.toNat * 256 + e1.toNat) ∧
      (literalLength i).toNat ≤ 3 ∧ 3 ≤ (matchLength i).toNat ∧ (matchLength i).toNat ≤ 10) ∧
    (classify op = .distancePrevious →
      (literalLength i).toNat = op.toNat / 64 ∧ (matchLength i).toNat = op.toNat / 8 % 8 + 3 ∧
      ownDistance i = none ∧
      1 ≤ (literalLength i).toNat ∧ (literalLength i).toNat ≤ 3 ∧
      3 ≤ (matchLength i).toNat ∧ (matchLength i).toNat ≤ 8) ∧
    (classify op = .distanceMedium →
      (literalLength i).toNat = op.toNat / 8 % 4 ∧
      (matchLength i).toNat = op.toNat % 8 * 4 + e1.toNat % 4 + 3 ∧
      (ownDistance i).map BitVec.toNat = some (e2.toNat * 64 + e1.toNat / 4) ∧
      (literalLength i).toNat ≤ 3 ∧ 3 ≤ (matchLength i).toNat ∧ (matchLength i).toNat ≤ 34 ∧
      e2.toNat * 64 + e1.toNat / 4 ≤ 16383) ∧
    (classify op = .literalLarge →
      (literalLength i).toNat = e1.toNat + 16 ∧ (matchLength i).toNat = 0 ∧ ownDistance i = none ∧
      16 ≤ (literalLength i).toNat ∧ (literalLength i).toNat ≤ 271) ∧
    (classify op = .literalSmall →
      (literalLength i).toNat = op.toNat % 16 ∧ (matchLength i).toNat = 0 ∧ ownDistance i = none ∧
      1 ≤ (literalLength i).toNat ∧ (literalLength i).toNat ≤ 15) ∧
    (classify op = .matchLarge →
      (literalLength i).toNat = 0 ∧ (matchLength i).toNat = e1.toNat + 16 ∧ ownDistance i = none ∧
      16 ≤ (matchLength i).toNat ∧ (matchLength i).toNat ≤ 271) ∧
    (classify op = .matchSmall →
      (literalLength i).toNat = 0 ∧ (matchLength i).toNat = op.toNat % 16 ∧ ownDistance i = none ∧
      1 ≤ (matchLength i).toNat ∧ (matchLength i).toNat ≤ 15) ∧
    (classify op = .endOfStream ∨ classify op = .noOp ∨ classify op = .invalid →
      literalLength i = 0 ∧ matchLength i = 0 ∧ ownDistance i = none)

/-! ### Reset, the host's moves and START -/

/-- R230 (the spec's own decision D7): power-on reset, as the state after reset and as a host move from ANY state.
`STATE = IDLE`, `STOP_REASON`, the error record and the presence bits cleared; and a `START` issued next fails with
InvalidArgument, because the two presence bits are 0. -/
def Obligations.PowerOnResetClearsAndGuardsStart : Prop :=
  ∀ (s : State) (ms : List HostMove) (p : State),
    (p = State.reset ∨ (s.schedule = .powerOnReset :: ms ∧ step s = .next p)) →
    p.runState = .idle ∧ p.stopReason = .notStopped ∧ p.errKind = .noError ∧ p.errOpcode = 0 ∧ p.errOffset = 0 ∧
    p.srcPresent = false ∧ p.dstPresent = false ∧
    ∀ (q : State) (ns : List HostMove), q = { p with schedule := .start :: ns } →
      ∃ f, step q = .next f ∧ f.runState = .fault ∧ f.errKind = .invalidArgument

/-- R26, R230 (the spec's own decision D7): power-on reset is taken in every state, running calls included. That both
buffers keep their bytes is the MODEL'S OWN CHOICE (notes/assumptions/4.md, unsafe): R34 says only that their contents are
the host's. That the rest of the host's plan stays is the model's too (notes/assumptions/6.md). -/
def Obligations.PowerOnResetIsAlwaysTaken : Prop :=
  ∀ (s : State) (ms : List HostMove), s.schedule = .powerOnReset :: ms →
    ∃ p, step s = .next p ∧ p.runState = .idle ∧ p.src = s.src ∧ p.dst = s.dst ∧ p.schedule = ms

/-- R27, R202 (register set and protocol are the spec's own decisions D5, D6): `START`. With a valid descriptor (and `SRC`
holding the bytes it declares, R237) every register of R21 is set as listed and `STATE = RUN`; with an invalid one,
InvalidArgument(0, 0) is raised and no memory is touched; in `RUN` the host has no such move, and the model refuses it
(notes/assumptions/8.md). -/
def Obligations.StartCommand : Prop :=
  ∀ (s : State) (ms : List HostMove), s.schedule = .start :: ms →
    (s.runState ≠ .run → s.descriptorValid → (∀ off, off < s.srcSize → (s.src.read off).isSome) →
      step s = .next { s with
        schedule := ms, errKind := .noError, errOpcode := 0, errOffset := 0, stopReason := .notStopped,
        inSize := s.srcSize, cap := s.dstCap, rc := 0, wc := 0, prevDist := 0, opcode := 0, opOffset := 0,
        optype := .noOp, e1 := 0, e2 := 0, litLen := 0, matchLen := 0, runState := .run }) ∧
    (s.runState ≠ .run →
      (s.srcPresent = false ∨ s.dstPresent = false ∨ Config.maxSize < s.srcSize ∨ Config.maxSize < s.dstCap) →
      step s = .next { s with
        schedule := ms, errKind := .invalidArgument, errOpcode := 0, errOffset := 0, stopReason := .notStopped,
        runState := .fault }) ∧
    (s.runState = .run → step s = .refused .hostMoveDuringRun)

/-- Two STARTs the spec gives no meaning are refused by name. Both refusals are the MODEL'S OWN FORM of that: for
overlapping buffers notes/assumptions/9.md (R66 and R235 refuse the call, the spec's decision D13), for fewer bytes in
`SRC` than a valid descriptor declares notes/assumptions/10.md (R237 says that the case cannot be written down). -/
def Obligations.MeaninglessStartsAreRefused : Prop :=
  ∀ (s : State) (ms : List HostMove), s.runState ≠ .run →
    (s.schedule = .startWithOverlap :: ms → step s = .refused .overlappingBuffers) ∧
    (s.schedule = .start :: ms → s.descriptorValid → (∃ off, off < s.srcSize ∧ s.src.read off = none) →
      step s = .refused .sourceShorterThanDeclared)

/-- R236: while `STATE = RUN` every move of the host but rest, poll and power-on reset is refused, and a poll changes
nothing. -/
def Obligations.HostIsShutOutDuringRun : Prop :=
  ∀ (s : State) (m : HostMove) (ms : List HostMove), s.runState = .run → s.schedule = m :: ms →
    (m.allowedInRun = false → step s = .refused .hostMoveDuringRun) ∧
    (m = .poll → step s = .next { s with schedule := ms })

/-- R25, R233, R234: outside `RUN` the host writes the four descriptor registers and supplies the two buffers; each move
changes that and nothing else. That a write of a number of more than `AW` bits is REFUSED is the model's own choice
(notes/assumptions/11.md): R25 gives the registers `AW` bits and names no such write. That a supplied buffer holds exactly
the given bytes and no value elsewhere is notes/assumptions/5.md. -/
def Obligations.HostWritesDescriptorAndBuffers : Prop :=
  ∀ (s : State) (ms : List HostMove), s.runState ≠ .run →
    (∀ v, s.schedule = .writeSrcPresent v :: ms → step s = .next { s with schedule := ms, srcPresent := v }) ∧
    (∀ v, s.schedule = .writeDstPresent v :: ms → step s = .next { s with schedule := ms, dstPresent := v }) ∧
    (∀ v, s.schedule = .writeSrcSize v :: ms →
      (v < 2 ^ Config.aw → step s = .next { s with schedule := ms, srcSize := v }) ∧
      (2 ^ Config.aw ≤ v → step s = .refused .valueWiderThanRegister)) ∧
    (∀ v, s.schedule = .writeDstCap v :: ms →
      (v < 2 ^ Config.aw → step s = .next { s with schedule := ms, dstCap := v }) ∧
      (2 ^ Config.aw ≤ v → step s = .refused .valueWiderThanRegister)) ∧
    (∀ bs, s.schedule = .supplySrc bs :: ms →
      ∃ t, step s = .next t ∧ t = { s with schedule := ms, src := t.src } ∧ t.src.wf ∧
        ∀ off, t.src.read off = bs[off]?) ∧
    (∀ bs, s.schedule = .supplyDst bs :: ms →
      ∃ t, step s = .next t ∧ t = { s with schedule := ms, dst := t.dst } ∧ t.dst.wf ∧
        ∀ off, t.dst.read off = bs[off]?)

/-- R25, R26, R30, R200: the host reads the status bits as the numbers of the tables at any time, the descriptor registers
outside `RUN`, and collects `DST[0 .. DST_CAP-1]`
exactly in `DONE`. The numbers are the spec's own (D5, D6, D10); that nothing is given out in other states is D17
(notes/assumptions/19.md). -/
def Obligations.HostReadsCodesAndResult : Prop :=
  ∀ s : State,
    s.hostStatus.stateCode.toNat =
      (match s.runState with | .idle => 0 | .run => 1 | .done => 2 | .fault => 3) ∧
    s.hostStatus.stopReasonCode.toNat =
      (match s.stopReason with | .notStopped => 0 | .eos => 1 | .outputFull => 2 | .inputEnd => 3) ∧
    s.hostStatus.errKindCode.toNat =
      (match s.errKind with
        | .noError => 0 | .invalidArgument => 1 | .truncatedInput => 2 | .invalidOpcode => 3 | .outOfBounds => 4) ∧
    s.hostStatus.errOpcode = s.errOpcode ∧ s.hostStatus.errOffset = s.errOffset ∧
    (s.runState ≠ .run → s.hostDescriptor = some ⟨s.srcPresent, s.srcSize, s.dstPresent, s.dstCap⟩) ∧
    (s.runState = .run → s.hostDescriptor = none) ∧
    (s.runState = .done → s.hostResult = some (s.dstCap, (List.range s.dstCap).map s.dst.read)) ∧
    (s.runState ≠ .done → s.hostResult = none)

/-- R232: nothing survives from one call to the next. Two states with the same descriptor and buffers, whatever call
ended in them, answer a valid `START` with the SAME state. -/
def Obligations.NothingSurvivesACall : Prop :=
  ∀ (s t : State) (ms : List HostMove), s.schedule = .start :: ms → t.schedule = .start :: ms →
    s.runState ≠ .run → t.runState ≠ .run → s.descriptorValid →
    t.srcPresent = s.srcPresent → t.dstPresent = s.dstPresent → t.srcSize = s.srcSize → t.dstCap = s.dstCap →
    t.src = s.src → t.dst = s.dst → step t = step s

/-! ### The decode loop -/

/-- R121, R127: the stop conditions at the top of an iteration, input end first. The call ends in `DONE` with `DST_CAP`
the bytes written; no token is fetched; the cursors, the token registers, the error record and both buffers stay. That
`INPUT_END` is reported when both hold is the spec's own decision D11 (notes/assumptions/18.md). -/
def Obligations.StopConditions : Prop :=
  ∀ s s0 : State, s.turn = (.rest, s0) → s.runState = .run →
    (s.rc = s.inSize →
      step s = .next { s0 with dstCap := s.wc, stopReason := .inputEnd, runState := .done }) ∧
    (s.rc ≠ s.inSize → s.wc = s.cap →
      step s = .next { s0 with dstCap := s.wc, stopReason := .outputFull, runState := .done })

/-- R120, R122 to R125: when no stop condition holds and the bytes at `RC` decode to a token, the step is that token's
meaning in the state the fetch leaves. -/
def Obligations.StepRunsTheDecodedToken : Prop :=
  ∀ (s s0 : State) (bytes : List Byte) (i : Instr) (rest : List Byte),
    s.Fetching s0 → s.HasBytes bytes → decode bytes = .ok (i, rest) → step s = exec i (s0.fetched i bytes)

/-- R141: the extra-byte guard. When not all extra bytes of the type are there, TruncatedInput is raised with the opcode
and its offset, and not even a present first extra byte is read. That the record holds opcode and offset for this kind,
and that `DST_CAP` and `STOP_REASON` stay, is the spec's own decision D10 (notes/assumptions/17.md); that `DST` stays is
R57 under D17 (notes/assumptions/19.md). -/
def Obligations.TruncatedTokenTraps : Prop :=
  ∀ (s s0 : State) (b : Byte), s.Fetching s0 → s.rc < s.inSize → s.src.read s.rc = some b →
    s.inSize - (s.rc + 1) < extraBytes (classify b) →
    step s = .next { s0 with
      opOffset := s.rc, opcode := b, rc := s.rc + 1, optype := classify b, e1 := 0, e2 := 0, litLen := 0, matchLen := 0,
      errKind := .truncatedInput, errOpcode := b, errOffset := s.rc, runState := .fault }

/-- R26, R206, R225: in `IDLE`, `DONE` and `FAULT` the engine has no step. That a step of the machine then leaves the
state as it is, is the model's choice (notes/assumptions/7.md). -/
def Obligations.NoEngineStepOutsideRun : Prop :=
  ∀ s s0 : State, s.turn = (.rest, s0) → s.runState ≠ .run → step s = .next s0

/-! ### The tokens -/

/-- R160 to R164: the four distance opcodes complete and do the whole of their effect, for every field value, whenever
their guards pass. -/
def Obligations.DistanceTokensComplete : Prop :=
  ∀ s : State,
    (∀ (lit : BitVec 2) (m : BitVec 3) (d : BitVec 16), s.CanCopy lit.toNat (m.toNat + 3) d →
      s.CompletesCopy lit.toNat (m.toNat + 3) d (exec (.distanceLarge lit m d) s)) ∧
    (∀ (lit : BitVec 2) (m : BitVec 5) (d : BitVec 14), s.CanCopy lit.toNat (m.toNat + 3) (BitVec.ofNat 16 d.toNat) →
      s.CompletesCopy lit.toNat (m.toNat + 3) (BitVec.ofNat 16 d.toNat) (exec (.distanceMedium lit m d) s)) ∧
    (∀ (lit : BitVec 2) (m : BitVec 3) (d : BitVec 11), s.CanCopy lit.toNat (m.toNat + 3) (BitVec.ofNat 16 d.toNat) →
      s.CompletesCopy lit.toNat (m.toNat + 3) (BitVec.ofNat 16 d.toNat) (exec (.distanceSmall lit m d) s)) ∧
    (∀ (lit : BitVec 2) (m : BitVec 3), s.CanCopy lit.toNat (m.toNat + 3) s.prevDist →
      s.CompletesCopy lit.toNat (m.toNat + 3) s.prevDist (exec (.distancePrevious lit m) s))

/-- R150, R151, R170, R171: the two literal opcodes complete and store exactly their payload. -/
def Obligations.LiteralTokensComplete : Prop :=
  ∀ s : State,
    (∀ n : BitVec 8, s.CanCopy (n.toNat + 16) 0 s.prevDist →
      s.CompletesCopy (n.toNat + 16) 0 s.prevDist (exec (.literalLarge n) s)) ∧
    (∀ n : BitVec 4, s.CanCopy n.toNat 0 s.prevDist →
      s.CompletesCopy n.toNat 0 s.prevDist (exec (.literalSmall n) s))

/-- R155 to R157, R175 to R177: the two match opcodes complete and replay the carried distance, overlapping replays
included. That it is the carried distance is the spec's own decision D8 (notes/assumptions/15.md). -/
def Obligations.MatchTokensComplete : Prop :=
  ∀ s : State,
    (∀ n : BitVec 8, s.CanCopy 0 (n.toNat + 16) s.prevDist →
      s.CompletesCopy 0 (n.toNat + 16) s.prevDist (exec (.matchLarge n) s)) ∧
    (∀ n : BitVec 4, s.CanCopy 0 n.toNat s.prevDist →
      s.CompletesCopy 0 n.toNat s.prevDist (exec (.matchSmall n) s))

/-- R180: END_OF_STREAM is `stop(EOS)` in every state, writes nothing, and the byte 0x06 at `RC` is that token. -/
def Obligations.EndOfStreamStops : Prop :=
  (∀ s : State, exec .endOfStream s = .next { s with dstCap := s.wc, stopReason := .eos, runState := .done }) ∧
  (∀ s s0 : State, s.Fetching s0 → s.HasBytes [0x06] →
    ∃ t, step s = .next t ∧ t.runState = .done ∧ t.stopReason = .eos ∧ t.dstCap = s.wc ∧ t.rc = s.rc + 1 ∧
      t.wc = s.wc ∧ t.prevDist = s.prevDist ∧ t.dst = s.dst ∧ t.errKind = s.errKind ∧ t.litLen = 0 ∧ t.matchLen = 0)

/-- R181: NONE does nothing beyond the fetch, for either of its bytes; the carried distance survives it. -/
def Obligations.NoneOnlyAdvances : Prop :=
  (∀ (s : State) (b : Byte), exec (.noOp b) s = .next s) ∧
  (∀ (s s0 : State) (b : Byte), b = 0x0E ∨ b = 0x16 → s.Fetching s0 → s.HasBytes [b] →
    ∃ t, step s = .next t ∧ t.runState = .run ∧ t.rc = s.rc + 1 ∧ t.wc = s.wc ∧ t.dst = s.dst ∧
      t.prevDist = s.prevDist ∧ t.litLen = 0 ∧ t.matchLen = 0)

/-- R182: INVALID raises InvalidOpcode(OPCODE, OP_OFFSET) in every state, writes nothing and consumes only its byte; each
of its 37 byte values does. That `DST_CAP` and `STOP_REASON` stay on a trap (R29, R206) is the spec's own decision D10
(notes/assumptions/17.md); `DST` after a trap is D17 (notes/assumptions/19.md). -/
def Obligations.InvalidRaisesInvalidOpcode : Prop :=
  (∀ (s : State) (b : Byte), exec (.invalid b) s = .next { s with
    errKind := .invalidOpcode, errOpcode := s.opcode, errOffset := s.opOffset, runState := .fault }) ∧
  (∀ (s s0 : State) (b : Byte), (Instr.invalid b).WellFormed → s.Fetching s0 → s.HasBytes [b] →
    ∃ t, step s = .next t ∧ t.runState = .fault ∧ t.errKind = .invalidOpcode ∧ t.errOpcode = b ∧ t.errOffset = s.rc ∧
      t.rc = s.rc + 1 ∧ t.wc = s.wc ∧ t.dst = s.dst ∧ t.prevDist = s.prevDist ∧
      t.dstCap = s.dstCap ∧ t.stopReason = s.stopReason ∧ t.litLen = 0 ∧ t.matchLen = 0)

/-- R142, R128, R146, R160: the literal guard. A literal that is not all in `SRC`, or does not fit in `DST`, raises
OutOfBounds with nothing of the token written and no cursor moved, the carried distance already overwritten by a
distance-bearing token, for every token that has a literal; one that fits, exactly included, passes and is copied. The
record of OutOfBounds and the unchanged `DST_CAP` and `STOP_REASON` are the spec's own decision D10
(notes/assumptions/17.md); `DST` after a trap is D17 (notes/assumptions/19.md). -/
def Obligations.LiteralGuardTraps : Prop :=
  (∀ (i : Instr) (s : State), literalLength i ≠ 0 →
    (s.inSize - s.rc < (literalLength i).toNat ∨ s.cap - s.wc < (literalLength i).toNat) →
    exec i s = .next { s with
      litLen := literalLength i, matchLen := matchLength i, prevDist := (ownDistance i).getD s.prevDist,
      errKind := .outOfBounds, errOpcode := s.opcode, errOffset := s.opOffset, runState := .fault }) ∧
  (∀ (i : Instr) (s t : State), literalLength i ≠ 0 →
    (literalLength i).toNat ≤ s.inSize - s.rc → (literalLength i).toNat ≤ s.cap - s.wc → exec i s = .next t →
    t.rc = s.rc + (literalLength i).toNat ∧
    ∀ k, k < (literalLength i).toNat → t.dst.read (s.wc + k) = s.src.read (s.rc + k))

/-- R143, R145, R128, R207: the match guard, tested at the write cursor the literal left. A distance that reaches too far
back, or a match that does not fit, raises OutOfBounds; no byte of the match is written, and the token's literal stays
written. A distance that reaches exactly to offset 0 and a match that fits exactly pass (the zero distance of R144 aside).
The spec's own decisions in it: the record and the unchanged `DST_CAP` and `STOP_REASON` are D10
(notes/assumptions/17.md), `DST` after a trap is D17 (notes/assumptions/19.md), the carried distance of the match opcodes
is D8 (notes/assumptions/15.md), and the premise that the distance is not 0 in the passing clause is D9
(notes/assumptions/16.md). -/
def Obligations.MatchGuardTraps : Prop :=
  (∀ (i : Instr) (s : State) (lit : Nat) (dist : Half),
    lit = (literalLength i).toNat → dist = (ownDistance i).getD s.prevDist → matchLength i ≠ 0 →
    lit ≤ s.inSize - s.rc → lit ≤ s.cap - s.wc → (∀ k, k < lit → (s.src.read (s.rc + k)).isSome) →
    (s.wc + lit < dist.toNat ∨ s.cap - (s.wc + lit) < (matchLength i).toNat) →
    ∃ t, exec i s = .next t ∧
      t = { s with
        litLen := literalLength i, matchLen := matchLength i, prevDist := dist, rc := s.rc + lit, wc := s.wc + lit,
        dst := t.dst, errKind := .outOfBounds, errOpcode := s.opcode, errOffset := s.opOffset, runState := .fault } ∧
      (∀ k, k < lit → t.dst.read (s.wc + k) = s.src.read (s.rc + k)) ∧
      (∀ off, off < s.wc ∨ s.wc + lit ≤ off → t.dst.read off = s.dst.read off)) ∧
  (∀ (i : Instr) (s t : State) (lit : Nat) (dist : Half),
    lit = (literalLength i).toNat → dist = (ownDistance i).getD s.prevDist → matchLength i ≠ 0 →
    lit ≤ s.inSize - s.rc → lit ≤ s.cap - s.wc →
    dist.toNat ≤ s.wc + lit → dist ≠ 0 → (matchLength i).toNat ≤ s.cap - (s.wc + lit) → exec i s = .next t →
    t.runState = s.runState ∧ t.errKind = s.errKind ∧ t.wc = s.wc + lit + (matchLength i).toNat)

/-- R144, R128, R207: a match at distance 0 raises OutOfBounds, whether the token carries the 0 itself or no distance has
been carried yet; the token's literal stays written. The spec's own decisions in it: the rejection is D9
(notes/assumptions/16.md), the record and the unchanged `DST_CAP` and `STOP_REASON` are D10 (notes/assumptions/17.md),
`DST` after a trap is D17 (notes/assumptions/19.md), and the carried distance of the match opcodes is D8
(notes/assumptions/15.md). -/
def Obligations.ZeroDistanceTraps : Prop :=
  ∀ (i : Instr) (s : State) (lit : Nat),
    lit = (literalLength i).toNat → (ownDistance i).getD s.prevDist = 0 → matchLength i ≠ 0 →
    lit ≤ s.inSize - s.rc → lit ≤ s.cap - s.wc → (∀ k, k < lit → (s.src.read (s.rc + k)).isSome) →
    ∃ t, exec i s = .next t ∧
      t = { s with
        litLen := literalLength i, matchLen := matchLength i, prevDist := 0, rc := s.rc + lit, wc := s.wc + lit,
        dst := t.dst, errKind := .outOfBounds, errOpcode := s.opcode, errOffset := s.opOffset, runState := .fault } ∧
      (∀ k, k < lit → t.dst.read (s.wc + k) = s.src.read (s.rc + k)) ∧
      (∀ off, off < s.wc ∨ s.wc + lit ≤ off → t.dst.read off = s.dst.read off)

/-- The frame of the eight copying tokens, traps included: whichever next state one answers, only the lengths, the
carried distance (which becomes the token's own, or stays), the two cursors, `DST` and, on a trap, the error record and
`STATE` differ; and every byte of `DST` outside the `t.wc - s.wc` bytes stored from `WC` on reads as before. On a trap the
record and the unchanged `DST_CAP` and `STOP_REASON` are the spec's own decision D10 (notes/assumptions/17.md), and `DST`
is D17 (notes/assumptions/19.md). -/
def Obligations.CopyingTokensFrame : Prop :=
  ∀ (i : Instr) (s t : State), i.opType ≠ .endOfStream → i.opType ≠ .noOp → i.opType ≠ .invalid → exec i s = .next t →
    (t = { s with
        litLen := literalLength i, matchLen := matchLength i, prevDist := (ownDistance i).getD s.prevDist,
        rc := s.rc + (literalLength i).toNat, wc := s.wc + (literalLength i).toNat + (matchLength i).toNat,
        dst := t.dst } ∨
      t = { s with
        litLen := literalLength i, matchLen := matchLength i, prevDist := (ownDistance i).getD s.prevDist,
        rc := t.rc, wc := t.wc, dst := t.dst,
        errKind := .outOfBounds, errOpcode := s.opcode, errOffset := s.opOffset, runState := .fault } ∧
        (t.rc = s.rc ∧ t.wc = s.wc ∨
          t.rc = s.rc + (literalLength i).toNat ∧ t.wc = s.wc + (literalLength i).toNat)) ∧
    ∀ off, off < s.wc ∨ t.wc ≤ off → t.dst.read off = s.dst.read off

/-- R200, R201, R205: a token that traps raises one of three kinds, each only from the types of the table, INVALID
always InvalidOpcode; the record is the token's own opcode byte and the offset it was fetched from (recording them for
every kind is the spec's own decision D10, notes/assumptions/17.md). -/
def Obligations.TrapsComeFromTheTabledTypes : Prop :=
  ∀ s s0 t : State, s.Fetching s0 → step s = .next t →
    s.src.read s.rc = some t.opcode ∧ t.opOffset = s.rc ∧ t.optype = classify t.opcode ∧
    (t.optype = .invalid → t.runState = .fault ∧ t.errKind = .invalidOpcode) ∧
    (t.runState = .fault →
      t.errOpcode = t.opcode ∧ t.errOffset = s.rc ∧
      ((t.errKind = .truncatedInput ∧ extraBytes t.optype ≠ 0) ∨
       (t.errKind = .invalidOpcode ∧ t.optype = .invalid) ∨
       (t.errKind = .outOfBounds ∧ t.optype ≠ .endOfStream ∧ t.optype ≠ .noOp ∧ t.optype ≠ .invalid)))

/-! ### Invariants and whole-machine rules -/

/-- The state after reset meets every invariant of the model. The values that R34 leaves unspecified are the model's
(notes/assumptions/3.md). -/
def Obligations.ResetMeetsTheInvariants : Prop :=
  State.reset.Inv ∧ State.reset.SizeInv ∧ State.reset.RecordInv

/-- R35: from every state that meets the invariant, whatever the host or the engine does, the next state meets it: both
spaces in canonical form, and in a running call the cursors within the buffers, the carried distance within the output,
and every byte the engine may read present. -/
def Obligations.StepKeepsTheInvariant : Prop :=
  ∀ s t : State, s.Inv → step s = .next t → t.Inv

/-- R21, R22, R25, R35: every register of `AW` bits keeps a value of that width (no cursor ever wraps), and a running
call's sizes stay within `MAX_SIZE`, whatever the two open parameters are. -/
def Obligations.StepKeepsRegisterWidths : Prop :=
  ∀ s t : State, s.Inv → s.SizeInv → step s = .next t → t.SizeInv

/-- R26, R28, R29, R30: an error kind is recorded exactly in `FAULT` and a stop reason exactly in `DONE`, and without an
error the record is 0; every step keeps this. -/
def Obligations.StepKeepsTheRecord : Prop :=
  ∀ s t : State, s.RecordInv → step s = .next t → t.RecordInv

/-- R147: what the guards guarantee. From every state that meets the invariant the machine performs no access outside the
legal ones, so no step faults; and when the engine has the turn it always answers a next state. -/
def Obligations.GuardsKeepEveryAccessLegal : Prop :=
  ∀ s : State, s.Inv →
    (∀ f, step s ≠ .fault f) ∧ (∀ s0, s.turn = (.rest, s0) → ∃ t, step s = .next t)

/-- R130, R131: a step that does not end the call advances `RC` by `1 + extra + LIT_LEN` and `WC` by
`LIT_LEN + MATCH_LEN` of the token at `RC`: at least 1 and at most 273 bytes consumed, at most 271 produced. -/
def Obligations.EveryIterationAdvances : Prop :=
  ∀ s s0 t : State, s.turn = (.rest, s0) → s.runState = .run → step s = .next t → t.runState = .run →
    t.rc = s.rc + (1 + extraBytes t.optype + t.litLen.toNat) ∧ t.wc = s.wc + (t.litLen.toNat + t.matchLen.toNat) ∧
    s.src.read s.rc = some t.opcode ∧ t.optype = classify t.opcode ∧
    t.litLen = literalLength t.token ∧ t.matchLen = matchLength t.token ∧
    t.rc ≤ s.rc + 273 ∧ t.wc ≤ s.wc + 271

/-- R131: termination. From any sound running state, a step that does not end the call increases `RC` by at least 1, and no
step consumes more than 273 bytes or produces more than 271; with the host at rest the call is over after at most one
step for each byte of input left and one final step. -/
def Obligations.CallTerminates : Prop :=
  ∀ s : State, s.Inv → s.runState = .run → s.schedule = [] →
    (∀ t, step s = .next t → (t.runState = .run → s.rc < t.rc) ∧ t.rc ≤ s.rc + 273 ∧ t.wc ≤ s.wc + 271) ∧
    ∃ t, Host.Core.run Sys2Proof.core (s.inSize - s.rc + 1) s = .next t ∧ (t.runState = .done ∨ t.runState = .fault)

/-- R58: the outcome of a call does not depend on what `DST` held before it. Two sound running states that differ in
nothing but the bytes of `DST` the call has not written run in step for ever: same registers, same bytes written. It rests
on the zero-distance rejection, the spec's own decision D9 (notes/assumptions/16.md), and speaks of `DST` after a trap,
which is D17 (notes/assumptions/19.md). -/
def Obligations.OutcomeIgnoresOldOutput : Prop :=
  ∀ (k : Nat) (s t : State), s.Inv → t.Inv → s.schedule = [] → s.runState = .run → s.SameCall t →
    ∃ s' t', Host.Core.run Sys2Proof.core k s = .next s' ∧ Host.Core.run Sys2Proof.core k t = .next t' ∧ s'.SameCall t'

/-- R56, R57, R66: an iteration writes `DST` only at `WC` and up to the new `WC`, never a byte below (each offset at most
once per call) and never one at or above; it never writes `SRC`. The same holds of any number of iterations: above the
final `WC` the bytes are what they were before the call. What `DST` holds after a trap is the spec's own decision D17
(notes/assumptions/19.md). -/
def Obligations.IterationWritesOnlyBetweenTheCursors : Prop :=
  (∀ s s0 t : State, s.turn = (.rest, s0) → step s = .next t →
    s.wc ≤ t.wc ∧ t.src = s.src ∧ ∀ off, off < s.wc ∨ t.wc ≤ off → t.dst.read off = s.dst.read off) ∧
  (∀ (k : Nat) (s t : State), s.schedule = [] → Host.Core.run Sys2Proof.core k s = .next t →
    s.wc ≤ t.wc ∧ t.src = s.src ∧ ∀ off, off < s.wc ∨ t.wc ≤ off → t.dst.read off = s.dst.read off)

/-- R26 (the spec's own decision D6): `STATE` moves only as the table says. -/
def Obligations.StateMovesOnlyAsTabled : Prop :=
  ∀ s t : State, step s = .next t →
    t.runState = s.runState ∨
    (s.runState ≠ .run ∧ s.turn.1 = .start ∧ (t.runState = .run ∨ t.runState = .fault)) ∨
    (s.runState = .run ∧ s.turn.1 = .rest ∧ (t.runState = .done ∨ t.runState = .fault)) ∨
    (s.turn.1 = .powerOnReset ∧ t.runState = .idle)

/-- R28: the result of a successful stop. `DST_CAP` is the bytes written, at most the original capacity; every byte of
the result the host collects is present; no error is recorded. -/
def Obligations.SuccessReportsTheBytesWritten : Prop :=
  ∀ s s0 t : State, s.Inv → s.RecordInv → s.turn = (.rest, s0) → s.runState = .run → step s = .next t →
    t.runState = .done →
    t.dstCap = t.wc ∧ t.dstCap ≤ s.cap ∧ t.stopReason ≠ .notStopped ∧ t.errKind = .noError ∧ t.errOpcode = 0 ∧
    t.errOffset = 0 ∧ t.hostResult = some (t.wc, (List.range t.wc).map s.dst.read) ∧
    ∀ off, off < t.wc → (t.dst.read off).isSome

/-- R208, R209: there is no resumption (that a rested machine stays as it is, is notes/assumptions/7.md). A trapped or finished engine stays as it is however long it is left, and a step
that takes it out of `FAULT` or `DONE` is a `START` or a power-on reset. -/
def Obligations.NoResumption : Prop :=
  ∀ s : State, (s.runState = .fault ∨ s.runState = .done) →
    (∀ k, s.schedule = [] → Host.Core.run Sys2Proof.core k s = .next s) ∧
    (∀ t, step s = .next t → t.runState ≠ s.runState → s.turn.1 = .start ∨ s.turn.1 = .powerOnReset)
end

