-- ==== Sys2Proof/Laws/Decode.lean ====
section
/-! SUPPORT. The classifier's table and its arithmetic form (R85, R86), and the decoder opened once. -/

namespace Sys2Proof

set_option maxRecDepth 4000 in
theorem classify_eq_arith : ∀ b : Byte, classify b = classifyArith b := by decide

@[simp] theorem decode_nil : decode [] = .error .noByte := rfl

/-- The decoder on a byte string that is not empty. -/
theorem decode_cons (op : Byte) (rest : List Byte) :
    decode (op :: rest) = if rest.length < extraBytes (classify op) then .error .truncated
      else .ok (assemble op (rest.getD 0 0) (rest.getD 1 0), rest.drop (extraBytes (classify op))) := rfl

/-- What the decoder answered, if it answered a token. -/
theorem decode_ok {bytes : List Byte} {i : Instr} {rest : List Byte} (h : decode bytes = .ok (i, rest)) :
    ∃ op tail, bytes = op :: tail ∧ extraBytes (classify op) ≤ tail.length ∧
      i = assemble op (tail.getD 0 0) (tail.getD 1 0) ∧ rest = tail.drop (extraBytes (classify op)) := by
  cases bytes with
  | nil => cases h
  | cons op tail =>
    rw [decode_cons] at h
    split at h
    · cases h
    · rename_i hlen
      simp only [Except.ok.injEq, Prod.mk.injEq] at h
      exact ⟨op, tail, rfl, Nat.le_of_not_lt hlen, h.1.symm, h.2.symm⟩

/-- The assembled token is of the type the opcode classifies as. -/
theorem opType_assemble (op e1 e2 : Byte) : (assemble op e1 e2).opType = classify op := by
  unfold assemble
  split <;> rename_i h <;> simp [Instr.opType, h]

theorem extraBytes_le_two (t : OpType) : extraBytes t ≤ 2 := by cases t <;> decide

end Sys2Proof
end

