-- ==== Sys2Proof/Laws/Memory.lean ====
section
/-! SUPPORT. The laws of one byte space: a read after a write, the canonical form, and that equal reads of canonical
spaces are equal data. -/

namespace Sys2Proof.Machine

@[simp] theorem Memory.read_nil (a : Nat) : Memory.read [] a = none := rfl

@[simp] theorem Memory.read_write_same (m : Memory) (a : Nat) (b : Byte) : (m.write a b).read a = some b := by
  induction m with
  | nil => simp [Memory.write, Memory.read]
  | cons c t ih =>
    obtain ⟨k, v⟩ := c
    simp only [Memory.write]
    split
    · simp [Memory.read]
    · split
      · simp [Memory.read]
      · rename_i h1 h2
        simp [Memory.read, h2, ih]

theorem Memory.read_write_other (m : Memory) (a x : Nat) (b : Byte) (h : x ≠ a) :
    (m.write a b).read x = m.read x := by
  induction m with
  | nil => simp [Memory.write, Memory.read, h]
  | cons c t ih =>
    obtain ⟨k, v⟩ := c
    simp only [Memory.write]
    split
    · simp [Memory.read, h]
    · split
      · rename_i h2
        subst h2
        simp [Memory.read, h]
      · simp [Memory.read, ih]

theorem Memory.mem_write (m : Memory) (a : Nat) (b : Byte) (c : Host.Cell) (h : c ∈ m.write a b) :
    c = (a, b) ∨ c ∈ m := by
  induction m with
  | nil => simpa [Memory.write] using h
  | cons d t ih =>
    obtain ⟨k, v⟩ := d
    simp only [Memory.write] at h
    split at h
    · simpa using h
    · split at h
      · rcases List.mem_cons.mp h with h | h
        · exact .inl h
        · exact .inr (List.mem_cons_of_mem _ h)
      · rcases List.mem_cons.mp h with h | h
        · exact .inr (by simp [h])
        · rcases ih h with h | h
          · exact .inl h
          · exact .inr (List.mem_cons_of_mem _ h)

theorem Memory.wf_write {m : Memory} (h : m.wf) (a : Nat) (b : Byte) : (m.write a b).wf := by
  induction m with
  | nil => simp [Memory.write, Memory.wf]
  | cons c t ih =>
    obtain ⟨k, v⟩ := c
    have ht : Memory.wf t := (List.pairwise_cons.mp h).2
    have hk : ∀ x ∈ t, k < x.1 := (List.pairwise_cons.mp h).1
    simp only [Memory.write]
    split
    · rename_i hlt
      refine List.pairwise_cons.mpr ⟨?_, h⟩
      intro x hx
      rcases List.mem_cons.mp hx with rfl | hx
      · exact hlt
      · exact Nat.lt_trans hlt (hk x hx)
    · split
      · rename_i heq
        subst heq
        exact List.pairwise_cons.mpr ⟨hk, ht⟩
      · rename_i h1 h2
        refine List.pairwise_cons.mpr ⟨?_, ih ht⟩
        intro x hx
        rcases Memory.mem_write t a b x hx with rfl | hx
        · show k < a
          omega
        · exact hk x hx

theorem Memory.wf_writeRun {m : Memory} (h : m.wf) (a : Nat) (bs : List Byte) : (m.writeRun a bs).wf := by
  induction bs generalizing a with
  | nil => exact h
  | cons b bs ih => exact Memory.wf_write (ih (a + 1)) a b

theorem Memory.wf_ofBytes (bs : List Byte) : (Memory.ofBytes bs).wf :=
  Memory.wf_writeRun (m := []) List.Pairwise.nil 0 bs

/-- A run of bytes reads back byte by byte, and leaves every other offset alone. -/
theorem Memory.read_writeRun (m : Memory) (a x : Nat) (bs : List Byte) :
    (m.writeRun a bs).read x = if a ≤ x ∧ x < a + bs.length then bs[x - a]? else m.read x := by
  induction bs generalizing a with
  | nil => simp only [Memory.writeRun, List.length_nil]; rw [if_neg (by omega)]
  | cons b bs ih =>
    simp only [Memory.writeRun, List.length_cons]
    by_cases hx : x = a
    · subst hx
      simp
    · rw [Memory.read_write_other _ _ _ _ hx, ih]
      by_cases h : a ≤ x
      · have hs : x - a = (x - (a + 1)) + 1 := by omega
        rw [hs, List.getElem?_cons_succ]
        congr 1
        apply propext
        omega
      · rw [if_neg (by omega), if_neg (by omega)]

theorem Memory.read_ofBytes (bs : List Byte) (x : Nat) : (Memory.ofBytes bs).read x = bs[x]? := by
  rw [Memory.ofBytes, Memory.read_writeRun]
  by_cases h : x < bs.length
  · simp [h]
  · rw [if_neg (by omega)]
    simp [List.getElem?_eq_none (Nat.le_of_not_lt h)]

/-- Below its first offset a canonical space lists nothing. -/
theorem Memory.read_below {m : Memory} {a : Nat} (h : ∀ c ∈ m, a < c.1) : m.read a = none := by
  induction m with
  | nil => rfl
  | cons c t ih =>
    obtain ⟨k, v⟩ := c
    have hk : a < k := h (k, v) (by simp)
    rw [Memory.read, if_neg (by omega)]
    exact ih fun c hc => h c (List.mem_cons_of_mem _ hc)

/-- Canonical spaces that read alike are equal data. -/
theorem Memory.ext_of_read {m n : Memory} (hm : m.wf) (hn : n.wf) (h : ∀ a, m.read a = n.read a) : m = n := by
  induction m generalizing n with
  | nil =>
    cases n with
    | nil => rfl
    | cons c t =>
      obtain ⟨k, v⟩ := c
      have := h k
      simp [Memory.read] at this
  | cons c t ih =>
    obtain ⟨k, v⟩ := c
    cases n with
    | nil => have := h k; simp [Memory.read] at this
    | cons d u =>
      obtain ⟨l, w⟩ := d
      have ht := (List.pairwise_cons.mp hm)
      have hu := (List.pairwise_cons.mp hn)
      have hkl : k = l := by
        rcases Nat.lt_trichotomy k l with hlt | heq | hgt
        · have h1 : Memory.read ((l, w) :: u) k = none := Memory.read_below (by
            intro c hc
            rcases List.mem_cons.mp hc with rfl | hc
            · exact hlt
            · exact Nat.lt_trans hlt (hu.1 c hc))
          have := h k
          rw [h1] at this
          simp [Memory.read] at this
        · exact heq
        · have h1 : Memory.read ((k, v) :: t) l = none := Memory.read_below (by
            intro c hc
            rcases List.mem_cons.mp hc with rfl | hc
            · exact hgt
            · exact Nat.lt_trans hgt (ht.1 c hc))
          have := h l
          rw [h1] at this
          simp [Memory.read] at this
      subst hkl
      have hv : v = w := by
        have := h k
        simpa [Memory.read] using this
      subst hv
      have : t = u := ih ht.2 hu.2 (fun a => by
        by_cases ha : a = k
        · subst ha
          rw [Memory.read_below ht.1, Memory.read_below hu.1]
        · have := h a
          simpa [Memory.read, ha] using this)
      rw [this]

theorem Memory.covers_iff (m : Memory) (n : Nat) : m.covers n = true ↔ ∀ off, off < n → (m.read off).isSome := by
  simp [Memory.covers]

end Sys2Proof.Machine
end

