-- ==== Sys2Proof/Laws/State.lean ====
section
/-! SUPPORT. One lemma per field per update of State: what each named update writes, and that it leaves the rest. -/

namespace Sys2Proof.Machine

@[simp] theorem State.stop_rc (s : State) (r : StopReason) : (s.stop r).rc = s.rc := rfl
@[simp] theorem State.stop_wc (s : State) (r : StopReason) : (s.stop r).wc = s.wc := rfl
@[simp] theorem State.stop_prevDist (s : State) (r : StopReason) : (s.stop r).prevDist = s.prevDist := rfl
@[simp] theorem State.stop_inSize (s : State) (r : StopReason) : (s.stop r).inSize = s.inSize := rfl
@[simp] theorem State.stop_cap (s : State) (r : StopReason) : (s.stop r).cap = s.cap := rfl
@[simp] theorem State.stop_opcode (s : State) (r : StopReason) : (s.stop r).opcode = s.opcode := rfl
@[simp] theorem State.stop_opOffset (s : State) (r : StopReason) : (s.stop r).opOffset = s.opOffset := rfl
@[simp] theorem State.stop_optype (s : State) (r : StopReason) : (s.stop r).optype = s.optype := rfl
@[simp] theorem State.stop_e1 (s : State) (r : StopReason) : (s.stop r).e1 = s.e1 := rfl
@[simp] theorem State.stop_e2 (s : State) (r : StopReason) : (s.stop r).e2 = s.e2 := rfl
@[simp] theorem State.stop_litLen (s : State) (r : StopReason) : (s.stop r).litLen = s.litLen := rfl
@[simp] theorem State.stop_matchLen (s : State) (r : StopReason) : (s.stop r).matchLen = s.matchLen := rfl
@[simp] theorem State.stop_srcPresent (s : State) (r : StopReason) : (s.stop r).srcPresent = s.srcPresent := rfl
@[simp] theorem State.stop_srcSize (s : State) (r : StopReason) : (s.stop r).srcSize = s.srcSize := rfl
@[simp] theorem State.stop_dstPresent (s : State) (r : StopReason) : (s.stop r).dstPresent = s.dstPresent := rfl
@[simp] theorem State.stop_dstCap (s : State) (r : StopReason) : (s.stop r).dstCap = s.wc := rfl
@[simp] theorem State.stop_runState (s : State) (r : StopReason) : (s.stop r).runState = .done := rfl
@[simp] theorem State.stop_stopReason (s : State) (r : StopReason) : (s.stop r).stopReason = r := rfl
@[simp] theorem State.stop_errKind (s : State) (r : StopReason) : (s.stop r).errKind = s.errKind := rfl
@[simp] theorem State.stop_errOpcode (s : State) (r : StopReason) : (s.stop r).errOpcode = s.errOpcode := rfl
@[simp] theorem State.stop_errOffset (s : State) (r : StopReason) : (s.stop r).errOffset = s.errOffset := rfl
@[simp] theorem State.stop_src (s : State) (r : StopReason) : (s.stop r).src = s.src := rfl
@[simp] theorem State.stop_dst (s : State) (r : StopReason) : (s.stop r).dst = s.dst := rfl
@[simp] theorem State.stop_schedule (s : State) (r : StopReason) : (s.stop r).schedule = s.schedule := rfl

@[simp] theorem State.raise_rc (s : State) (k : ErrKind) (op : Byte) (off : Nat) : (s.raise k op off).rc = s.rc := rfl
@[simp] theorem State.raise_wc (s : State) (k : ErrKind) (op : Byte) (off : Nat) : (s.raise k op off).wc = s.wc := rfl
@[simp] theorem State.raise_prevDist (s : State) (k : ErrKind) (op : Byte) (off : Nat) : (s.raise k op off).prevDist = s.prevDist := rfl
@[simp] theorem State.raise_inSize (s : State) (k : ErrKind) (op : Byte) (off : Nat) : (s.raise k op off).inSize = s.inSize := rfl
@[simp] theorem State.raise_cap (s : State) (k : ErrKind) (op : Byte) (off : Nat) : (s.raise k op off).cap = s.cap := rfl
@[simp] theorem State.raise_opcode (s : State) (k : ErrKind) (op : Byte) (off : Nat) : (s.raise k op off).opcode = s.opcode := rfl
@[simp] theorem State.raise_opOffset (s : State) (k : ErrKind) (op : Byte) (off : Nat) : (s.raise k op off).opOffset = s.opOffset := rfl
@[simp] theorem State.raise_optype (s : State) (k : ErrKind) (op : Byte) (off : Nat) : (s.raise k op off).optype = s.optype := rfl
@[simp] theorem State.raise_e1 (s : State) (k : ErrKind) (op : Byte) (off : Nat) : (s.raise k op off).e1 = s.e1 := rfl
@[simp] theorem State.raise_e2 (s : State) (k : ErrKind) (op : Byte) (off : Nat) : (s.raise k op off).e2 = s.e2 := rfl
@[simp] theorem State.raise_litLen (s : State) (k : ErrKind) (op : Byte) (off : Nat) : (s.raise k op off).litLen = s.litLen := rfl
@[simp] theorem State.raise_matchLen (s : State) (k : ErrKind) (op : Byte) (off : Nat) : (s.raise k op off).matchLen = s.matchLen := rfl
@[simp] theorem State.raise_srcPresent (s : State) (k : ErrKind) (op : Byte) (off : Nat) : (s.raise k op off).srcPresent = s.srcPresent := rfl
@[simp] theorem State.raise_srcSize (s : State) (k : ErrKind) (op : Byte) (off : Nat) : (s.raise k op off).srcSize = s.srcSize := rfl
@[simp] theorem State.raise_dstPresent (s : State) (k : ErrKind) (op : Byte) (off : Nat) : (s.raise k op off).dstPresent = s.dstPresent := rfl
@[simp] theorem State.raise_dstCap (s : State) (k : ErrKind) (op : Byte) (off : Nat) : (s.raise k op off).dstCap = s.dstCap := rfl
@[simp] theorem State.raise_runState (s : State) (k : ErrKind) (op : Byte) (off : Nat) : (s.raise k op off).runState = .fault := rfl
@[simp] theorem State.raise_stopReason (s : State) (k : ErrKind) (op : Byte) (off : Nat) : (s.raise k op off).stopReason = s.stopReason := rfl
@[simp] theorem State.raise_errKind (s : State) (k : ErrKind) (op : Byte) (off : Nat) : (s.raise k op off).errKind = k := rfl
@[simp] theorem State.raise_errOpcode (s : State) (k : ErrKind) (op : Byte) (off : Nat) : (s.raise k op off).errOpcode = op := rfl
@[simp] theorem State.raise_errOffset (s : State) (k : ErrKind) (op : Byte) (off : Nat) : (s.raise k op off).errOffset = off := rfl
@[simp] theorem State.raise_src (s : State) (k : ErrKind) (op : Byte) (off : Nat) : (s.raise k op off).src = s.src := rfl
@[simp] theorem State.raise_dst (s : State) (k : ErrKind) (op : Byte) (off : Nat) : (s.raise k op off).dst = s.dst := rfl
@[simp] theorem State.raise_schedule (s : State) (k : ErrKind) (op : Byte) (off : Nat) : (s.raise k op off).schedule = s.schedule := rfl

@[simp] theorem State.raiseToken_rc (s : State) (k : ErrKind) : (s.raiseToken k).rc = s.rc := rfl
@[simp] theorem State.raiseToken_wc (s : State) (k : ErrKind) : (s.raiseToken k).wc = s.wc := rfl
@[simp] theorem State.raiseToken_prevDist (s : State) (k : ErrKind) : (s.raiseToken k).prevDist = s.prevDist := rfl
@[simp] theorem State.raiseToken_inSize (s : State) (k : ErrKind) : (s.raiseToken k).inSize = s.inSize := rfl
@[simp] theorem State.raiseToken_cap (s : State) (k : ErrKind) : (s.raiseToken k).cap = s.cap := rfl
@[simp] theorem State.raiseToken_opcode (s : State) (k : ErrKind) : (s.raiseToken k).opcode = s.opcode := rfl
@[simp] theorem State.raiseToken_opOffset (s : State) (k : ErrKind) : (s.raiseToken k).opOffset = s.opOffset := rfl
@[simp] theorem State.raiseToken_optype (s : State) (k : ErrKind) : (s.raiseToken k).optype = s.optype := rfl
@[simp] theorem State.raiseToken_e1 (s : State) (k : ErrKind) : (s.raiseToken k).e1 = s.e1 := rfl
@[simp] theorem State.raiseToken_e2 (s : State) (k : ErrKind) : (s.raiseToken k).e2 = s.e2 := rfl
@[simp] theorem State.raiseToken_litLen (s : State) (k : ErrKind) : (s.raiseToken k).litLen = s.litLen := rfl
@[simp] theorem State.raiseToken_matchLen (s : State) (k : ErrKind) : (s.raiseToken k).matchLen = s.matchLen := rfl
@[simp] theorem State.raiseToken_srcPresent (s : State) (k : ErrKind) : (s.raiseToken k).srcPresent = s.srcPresent := rfl
@[simp] theorem State.raiseToken_srcSize (s : State) (k : ErrKind) : (s.raiseToken k).srcSize = s.srcSize := rfl
@[simp] theorem State.raiseToken_dstPresent (s : State) (k : ErrKind) : (s.raiseToken k).dstPresent = s.dstPresent := rfl
@[simp] theorem State.raiseToken_dstCap (s : State) (k : ErrKind) : (s.raiseToken k).dstCap = s.dstCap := rfl
@[simp] theorem State.raiseToken_runState (s : State) (k : ErrKind) : (s.raiseToken k).runState = .fault := rfl
@[simp] theorem State.raiseToken_stopReason (s : State) (k : ErrKind) : (s.raiseToken k).stopReason = s.stopReason := rfl
@[simp] theorem State.raiseToken_errKind (s : State) (k : ErrKind) : (s.raiseToken k).errKind = k := rfl
@[simp] theorem State.raiseToken_errOpcode (s : State) (k : ErrKind) : (s.raiseToken k).errOpcode = s.opcode := rfl
@[simp] theorem State.raiseToken_errOffset (s : State) (k : ErrKind) : (s.raiseToken k).errOffset = s.opOffset := rfl
@[simp] theorem State.raiseToken_src (s : State) (k : ErrKind) : (s.raiseToken k).src = s.src := rfl
@[simp] theorem State.raiseToken_dst (s : State) (k : ErrKind) : (s.raiseToken k).dst = s.dst := rfl
@[simp] theorem State.raiseToken_schedule (s : State) (k : ErrKind) : (s.raiseToken k).schedule = s.schedule := rfl

@[simp] theorem State.extract_rc (s : State) (l m : Half) : (s.extract l m).rc = s.rc := rfl
@[simp] theorem State.extract_wc (s : State) (l m : Half) : (s.extract l m).wc = s.wc := rfl
@[simp] theorem State.extract_prevDist (s : State) (l m : Half) : (s.extract l m).prevDist = s.prevDist := rfl
@[simp] theorem State.extract_inSize (s : State) (l m : Half) : (s.extract l m).inSize = s.inSize := rfl
@[simp] theorem State.extract_cap (s : State) (l m : Half) : (s.extract l m).cap = s.cap := rfl
@[simp] theorem State.extract_opcode (s : State) (l m : Half) : (s.extract l m).opcode = s.opcode := rfl
@[simp] theorem State.extract_opOffset (s : State) (l m : Half) : (s.extract l m).opOffset = s.opOffset := rfl
@[simp] theorem State.extract_optype (s : State) (l m : Half) : (s.extract l m).optype = s.optype := rfl
@[simp] theorem State.extract_e1 (s : State) (l m : Half) : (s.extract l m).e1 = s.e1 := rfl
@[simp] theorem State.extract_e2 (s : State) (l m : Half) : (s.extract l m).e2 = s.e2 := rfl
@[simp] theorem State.extract_litLen (s : State) (l m : Half) : (s.extract l m).litLen = l := rfl
@[simp] theorem State.extract_matchLen (s : State) (l m : Half) : (s.extract l m).matchLen = m := rfl
@[simp] theorem State.extract_srcPresent (s : State) (l m : Half) : (s.extract l m).srcPresent = s.srcPresent := rfl
@[simp] theorem State.extract_srcSize (s : State) (l m : Half) : (s.extract l m).srcSize = s.srcSize := rfl
@[simp] theorem State.extract_dstPresent (s : State) (l m : Half) : (s.extract l m).dstPresent = s.dstPresent := rfl
@[simp] theorem State.extract_dstCap (s : State) (l m : Half) : (s.extract l m).dstCap = s.dstCap := rfl
@[simp] theorem State.extract_runState (s : State) (l m : Half) : (s.extract l m).runState = s.runState := rfl
@[simp] theorem State.extract_stopReason (s : State) (l m : Half) : (s.extract l m).stopReason = s.stopReason := rfl
@[simp] theorem State.extract_errKind (s : State) (l m : Half) : (s.extract l m).errKind = s.errKind := rfl
@[simp] theorem State.extract_errOpcode (s : State) (l m : Half) : (s.extract l m).errOpcode = s.errOpcode := rfl
@[simp] theorem State.extract_errOffset (s : State) (l m : Half) : (s.extract l m).errOffset = s.errOffset := rfl
@[simp] theorem State.extract_src (s : State) (l m : Half) : (s.extract l m).src = s.src := rfl
@[simp] theorem State.extract_dst (s : State) (l m : Half) : (s.extract l m).dst = s.dst := rfl
@[simp] theorem State.extract_schedule (s : State) (l m : Half) : (s.extract l m).schedule = s.schedule := rfl

@[simp] theorem State.carry_rc (s : State) (d : Half) : (s.carry d).rc = s.rc := rfl
@[simp] theorem State.carry_wc (s : State) (d : Half) : (s.carry d).wc = s.wc := rfl
@[simp] theorem State.carry_prevDist (s : State) (d : Half) : (s.carry d).prevDist = d := rfl
@[simp] theorem State.carry_inSize (s : State) (d : Half) : (s.carry d).inSize = s.inSize := rfl
@[simp] theorem State.carry_cap (s : State) (d : Half) : (s.carry d).cap = s.cap := rfl
@[simp] theorem State.carry_opcode (s : State) (d : Half) : (s.carry d).opcode = s.opcode := rfl
@[simp] theorem State.carry_opOffset (s : State) (d : Half) : (s.carry d).opOffset = s.opOffset := rfl
@[simp] theorem State.carry_optype (s : State) (d : Half) : (s.carry d).optype = s.optype := rfl
@[simp] theorem State.carry_e1 (s : State) (d : Half) : (s.carry d).e1 = s.e1 := rfl
@[simp] theorem State.carry_e2 (s : State) (d : Half) : (s.carry d).e2 = s.e2 := rfl
@[simp] theorem State.carry_litLen (s : State) (d : Half) : (s.carry d).litLen = s.litLen := rfl
@[simp] theorem State.carry_matchLen (s : State) (d : Half) : (s.carry d).matchLen = s.matchLen := rfl
@[simp] theorem State.carry_srcPresent (s : State) (d : Half) : (s.carry d).srcPresent = s.srcPresent := rfl
@[simp] theorem State.carry_srcSize (s : State) (d : Half) : (s.carry d).srcSize = s.srcSize := rfl
@[simp] theorem State.carry_dstPresent (s : State) (d : Half) : (s.carry d).dstPresent = s.dstPresent := rfl
@[simp] theorem State.carry_dstCap (s : State) (d : Half) : (s.carry d).dstCap = s.dstCap := rfl
@[simp] theorem State.carry_runState (s : State) (d : Half) : (s.carry d).runState = s.runState := rfl
@[simp] theorem State.carry_stopReason (s : State) (d : Half) : (s.carry d).stopReason = s.stopReason := rfl
@[simp] theorem State.carry_errKind (s : State) (d : Half) : (s.carry d).errKind = s.errKind := rfl
@[simp] theorem State.carry_errOpcode (s : State) (d : Half) : (s.carry d).errOpcode = s.errOpcode := rfl
@[simp] theorem State.carry_errOffset (s : State) (d : Half) : (s.carry d).errOffset = s.errOffset := rfl
@[simp] theorem State.carry_src (s : State) (d : Half) : (s.carry d).src = s.src := rfl
@[simp] theorem State.carry_dst (s : State) (d : Half) : (s.carry d).dst = s.dst := rfl
@[simp] theorem State.carry_schedule (s : State) (d : Half) : (s.carry d).schedule = s.schedule := rfl

@[simp] theorem State.clearRecord_rc (s : State) : (s.clearRecord).rc = s.rc := rfl
@[simp] theorem State.clearRecord_wc (s : State) : (s.clearRecord).wc = s.wc := rfl
@[simp] theorem State.clearRecord_prevDist (s : State) : (s.clearRecord).prevDist = s.prevDist := rfl
@[simp] theorem State.clearRecord_inSize (s : State) : (s.clearRecord).inSize = s.inSize := rfl
@[simp] theorem State.clearRecord_cap (s : State) : (s.clearRecord).cap = s.cap := rfl
@[simp] theorem State.clearRecord_opcode (s : State) : (s.clearRecord).opcode = s.opcode := rfl
@[simp] theorem State.clearRecord_opOffset (s : State) : (s.clearRecord).opOffset = s.opOffset := rfl
@[simp] theorem State.clearRecord_optype (s : State) : (s.clearRecord).optype = s.optype := rfl
@[simp] theorem State.clearRecord_e1 (s : State) : (s.clearRecord).e1 = s.e1 := rfl
@[simp] theorem State.clearRecord_e2 (s : State) : (s.clearRecord).e2 = s.e2 := rfl
@[simp] theorem State.clearRecord_litLen (s : State) : (s.clearRecord).litLen = s.litLen := rfl
@[simp] theorem State.clearRecord_matchLen (s : State) : (s.clearRecord).matchLen = s.matchLen := rfl
@[simp] theorem State.clearRecord_srcPresent (s : State) : (s.clearRecord).srcPresent = s.srcPresent := rfl
@[simp] theorem State.clearRecord_srcSize (s : State) : (s.clearRecord).srcSize = s.srcSize := rfl
@[simp] theorem State.clearRecord_dstPresent (s : State) : (s.clearRecord).dstPresent = s.dstPresent := rfl
@[simp] theorem State.clearRecord_dstCap (s : State) : (s.clearRecord).dstCap = s.dstCap := rfl
@[simp] theorem State.clearRecord_runState (s : State) : (s.clearRecord).runState = s.runState := rfl
@[simp] theorem State.clearRecord_stopReason (s : State) : (s.clearRecord).stopReason = .notStopped := rfl
@[simp] theorem State.clearRecord_errKind (s : State) : (s.clearRecord).errKind = .noError := rfl
@[simp] theorem State.clearRecord_errOpcode (s : State) : (s.clearRecord).errOpcode = 0 := rfl
@[simp] theorem State.clearRecord_errOffset (s : State) : (s.clearRecord).errOffset = 0 := rfl
@[simp] theorem State.clearRecord_src (s : State) : (s.clearRecord).src = s.src := rfl
@[simp] theorem State.clearRecord_dst (s : State) : (s.clearRecord).dst = s.dst := rfl
@[simp] theorem State.clearRecord_schedule (s : State) : (s.clearRecord).schedule = s.schedule := rfl

@[simp] theorem State.beginCall_rc (s : State) : (s.beginCall).rc = 0 := rfl
@[simp] theorem State.beginCall_wc (s : State) : (s.beginCall).wc = 0 := rfl
@[simp] theorem State.beginCall_prevDist (s : State) : (s.beginCall).prevDist = 0 := rfl
@[simp] theorem State.beginCall_inSize (s : State) : (s.beginCall).inSize = s.srcSize := rfl
@[simp] theorem State.beginCall_cap (s : State) : (s.beginCall).cap = s.dstCap := rfl
@[simp] theorem State.beginCall_opcode (s : State) : (s.beginCall).opcode = 0 := rfl
@[simp] theorem State.beginCall_opOffset (s : State) : (s.beginCall).opOffset = 0 := rfl
@[simp] theorem State.beginCall_optype (s : State) : (s.beginCall).optype = .noOp := rfl
@[simp] theorem State.beginCall_e1 (s : State) : (s.beginCall).e1 = 0 := rfl
@[simp] theorem State.beginCall_e2 (s : State) : (s.beginCall).e2 = 0 := rfl
@[simp] theorem State.beginCall_litLen (s : State) : (s.beginCall).litLen = 0 := rfl
@[simp] theorem State.beginCall_matchLen (s : State) : (s.beginCall).matchLen = 0 := rfl
@[simp] theorem State.beginCall_srcPresent (s : State) : (s.beginCall).srcPresent = s.srcPresent := rfl
@[simp] theorem State.beginCall_srcSize (s : State) : (s.beginCall).srcSize = s.srcSize := rfl
@[simp] theorem State.beginCall_dstPresent (s : State) : (s.beginCall).dstPresent = s.dstPresent := rfl
@[simp] theorem State.beginCall_dstCap (s : State) : (s.beginCall).dstCap = s.dstCap := rfl
@[simp] theorem State.beginCall_runState (s : State) : (s.beginCall).runState = .run := rfl
@[simp] theorem State.beginCall_stopReason (s : State) : (s.beginCall).stopReason = s.stopReason := rfl
@[simp] theorem State.beginCall_errKind (s : State) : (s.beginCall).errKind = s.errKind := rfl
@[simp] theorem State.beginCall_errOpcode (s : State) : (s.beginCall).errOpcode = s.errOpcode := rfl
@[simp] theorem State.beginCall_errOffset (s : State) : (s.beginCall).errOffset = s.errOffset := rfl
@[simp] theorem State.beginCall_src (s : State) : (s.beginCall).src = s.src := rfl
@[simp] theorem State.beginCall_dst (s : State) : (s.beginCall).dst = s.dst := rfl
@[simp] theorem State.beginCall_schedule (s : State) : (s.beginCall).schedule = s.schedule := rfl

@[simp] theorem State.powerOn_rc (s : State) : (s.powerOn).rc = 0 := rfl
@[simp] theorem State.powerOn_wc (s : State) : (s.powerOn).wc = 0 := rfl
@[simp] theorem State.powerOn_prevDist (s : State) : (s.powerOn).prevDist = 0 := rfl
@[simp] theorem State.powerOn_inSize (s : State) : (s.powerOn).inSize = 0 := rfl
@[simp] theorem State.powerOn_cap (s : State) : (s.powerOn).cap = 0 := rfl
@[simp] theorem State.powerOn_opcode (s : State) : (s.powerOn).opcode = 0 := rfl
@[simp] theorem State.powerOn_opOffset (s : State) : (s.powerOn).opOffset = 0 := rfl
@[simp] theorem State.powerOn_optype (s : State) : (s.powerOn).optype = .noOp := rfl
@[simp] theorem State.powerOn_e1 (s : State) : (s.powerOn).e1 = 0 := rfl
@[simp] theorem State.powerOn_e2 (s : State) : (s.powerOn).e2 = 0 := rfl
@[simp] theorem State.powerOn_litLen (s : State) : (s.powerOn).litLen = 0 := rfl
@[simp] theorem State.powerOn_matchLen (s : State) : (s.powerOn).matchLen = 0 := rfl
@[simp] theorem State.powerOn_srcPresent (s : State) : (s.powerOn).srcPresent = false := rfl
@[simp] theorem State.powerOn_srcSize (s : State) : (s.powerOn).srcSize = 0 := rfl
@[simp] theorem State.powerOn_dstPresent (s : State) : (s.powerOn).dstPresent = false := rfl
@[simp] theorem State.powerOn_dstCap (s : State) : (s.powerOn).dstCap = 0 := rfl
@[simp] theorem State.powerOn_runState (s : State) : (s.powerOn).runState = .idle := rfl
@[simp] theorem State.powerOn_stopReason (s : State) : (s.powerOn).stopReason = .notStopped := rfl
@[simp] theorem State.powerOn_errKind (s : State) : (s.powerOn).errKind = .noError := rfl
@[simp] theorem State.powerOn_errOpcode (s : State) : (s.powerOn).errOpcode = 0 := rfl
@[simp] theorem State.powerOn_errOffset (s : State) : (s.powerOn).errOffset = 0 := rfl
@[simp] theorem State.powerOn_src (s : State) : (s.powerOn).src = s.src := rfl
@[simp] theorem State.powerOn_dst (s : State) : (s.powerOn).dst = s.dst := rfl
@[simp] theorem State.powerOn_schedule (s : State) : (s.powerOn).schedule = s.schedule := rfl

end Sys2Proof.Machine
end

