-- ==== Sys2Proof/Laws/Ops.lean ====
section
/-! SUPPORT. One lemma per shared operation that says everything it can do: the memory primitives, the literal copy
unit, the replay engine, the two guarded phases and their composition. Provers cite these and do not unfold. -/

namespace Sys2Proof.Machine

theorem State.srcRead_ok {s : State} {off : Nat} {b : Byte} :
    s.srcRead off = .ok b ↔ off < s.inSize ∧ s.src.read off = some b := by
  unfold State.srcRead
  split
  · rename_i h
    split <;> rename_i hr <;> simp [h, hr]
  · rename_i h
    simp [h]

theorem State.dstRead_ok {s : State} {off : Nat} {b : Byte} :
    s.dstRead off = .ok b ↔ off < s.wc ∧ s.dst.read off = some b := by
  unfold State.dstRead
  split
  · rename_i h
    split <;> rename_i hr <;> simp [h, hr]
  · rename_i h
    simp [h]

theorem State.dstWrite_ok {s t : State} {off : Nat} {v : Byte} :
    s.dstWrite off v = .ok t ↔ off = s.wc ∧ off < s.cap ∧ t = { s with dst := s.dst.write off v } := by
  unfold State.dstWrite
  split
  · rename_i h
    constructor
    · intro h'
      cases h'
      exact ⟨h.1, h.2, rfl⟩
    · rintro ⟨-, -, rfl⟩
      rfl
  · rename_i h
    constructor
    · intro h'; cases h'
    · rintro ⟨h1, h2, -⟩; exact absurd ⟨h1, h2⟩ h

/-- What the literal copy unit did, if it answered (R150, R151). -/
structure Copied (n : Nat) (s t : State) : Prop where
  frame : t = { s with rc := s.rc + n, wc := s.wc + n, dst := t.dst }
  inBounds : n = 0 ∨ (s.rc + n ≤ s.inSize ∧ s.wc + n ≤ s.cap)
  payload : ∀ i, i < n → t.dst.read (s.wc + i) = s.src.read (s.rc + i)
  present : ∀ i, i < n → (s.src.read (s.rc + i)).isSome
  outside : ∀ off, off < s.wc ∨ s.wc + n ≤ off → t.dst.read off = s.dst.read off
  wf : s.dst.wf → t.dst.wf

theorem literalCopy_spec {n : Nat} {s t : State} (h : literalCopy n s = .ok t) : Copied n s t := by
  induction n generalizing s with
  | zero =>
    simp only [literalCopy, Except.ok.injEq] at h
    subst h
    exact ⟨rfl, .inl rfl, by simp, by simp, fun _ _ => rfl, id⟩
  | succ n ih =>
    simp only [literalCopy] at h
    split at h
    · cases h
    · rename_i b hb
      obtain ⟨hlt, hread⟩ := State.srcRead_ok.mp hb
      split at h
      · cases h
      · rename_i u hu
        obtain ⟨-, hcap, rfl⟩ := State.dstWrite_ok.mp hu
        have c := ih h
        refine ⟨?_, ?_, ?_, ?_, ?_, ?_⟩
        · have hf := c.frame
          rw [hf]
          simp only [State.mk.injEq]
          refine ⟨by omega, by omega, ?_⟩
          simp
        · have hb := c.inBounds
          simp only at hb
          omega
        · intro i hi
          cases i with
          | zero =>
            have ho := c.outside s.wc (.inl (by simp))
            simp only [Memory.read_write_same] at ho
            simpa [hread] using ho
          | succ i =>
            have hp := c.payload i (by omega)
            simp only at hp
            rw [show s.wc + (i + 1) = s.wc + 1 + i by omega, show s.rc + (i + 1) = s.rc + 1 + i by omega]
            exact hp
        · intro i hi
          cases i with
          | zero => simp [hread]
          | succ i =>
            have hp := c.present i (by omega)
            simp only at hp
            rw [show s.rc + (i + 1) = s.rc + 1 + i by omega]
            exact hp
        · intro off hoff
          have ho := c.outside off (by simp only; omega)
          simp only at ho
          rw [ho, Memory.read_write_other _ _ _ _ (by omega)]
        · intro hw
          exact c.wf (Memory.wf_write hw _ _)

/-- When the literal copy unit answers: the guard passed and the payload is there. -/
theorem literalCopy_total {n : Nat} {s : State} (hin : n ≤ s.inSize - s.rc) (hcap : n ≤ s.cap - s.wc)
    (hread : ∀ i, i < n → (s.src.read (s.rc + i)).isSome) : ∃ t, literalCopy n s = .ok t := by
  induction n generalizing s with
  | zero => exact ⟨s, rfl⟩
  | succ n ih =>
    have h0 := hread 0 (by omega)
    simp only [Nat.add_zero] at h0
    obtain ⟨b, hb⟩ := Option.isSome_iff_exists.mp h0
    have hr : s.srcRead s.rc = .ok b := State.srcRead_ok.mpr ⟨by omega, hb⟩
    have hw : s.dstWrite s.wc b = .ok { s with dst := s.dst.write s.wc b } :=
      State.dstWrite_ok.mpr ⟨rfl, by omega, rfl⟩
    simp only [literalCopy, hr, hw]
    apply ih
    · show n ≤ s.inSize - (s.rc + 1)
      omega
    · show n ≤ s.cap - (s.wc + 1)
      omega
    · intro i hi
      have := hread (i + 1) (by omega)
      simpa only [show s.rc + 1 + i = s.rc + (i + 1) by omega] using this

/-- What the replay engine did, if it answered (R155): with `D` the carried distance, every replayed byte is the byte `D`
back, so an overlap reads what the same replay wrote (R156). -/
structure Replayed (n : Nat) (s t : State) : Prop where
  frame : t = { s with wc := s.wc + n, dst := t.dst }
  inBounds : n = 0 ∨ s.wc + n ≤ s.cap
  back : ∀ i, i < n → s.prevDist.toNat ≤ s.wc → s.prevDist.toNat ≠ 0 →
    t.dst.read (s.wc + i) = t.dst.read (s.wc + i - s.prevDist.toNat)
  present : ∀ i, i < n → (t.dst.read (s.wc + i)).isSome
  outside : ∀ off, off < s.wc ∨ s.wc + n ≤ off → t.dst.read off = s.dst.read off
  wf : s.dst.wf → t.dst.wf

theorem replay_spec {n : Nat} {s t : State} (h : replay n s = .ok t) : Replayed n s t := by
  induction n generalizing s with
  | zero =>
    simp only [replay, Except.ok.injEq] at h
    subst h
    exact ⟨rfl, .inl rfl, by simp, by simp, fun _ _ => rfl, id⟩
  | succ n ih =>
    simp only [replay] at h
    split at h
    · cases h
    · rename_i b hb
      obtain ⟨hlt, hread⟩ := State.dstRead_ok.mp hb
      split at h
      · cases h
      · rename_i u hu
        obtain ⟨-, hcap, rfl⟩ := State.dstWrite_ok.mp hu
        have c := ih h
        have hwc : t.dst.read s.wc = some b := by
          have ho := c.outside s.wc (.inl (by simp))
          simpa only [Memory.read_write_same] using ho
        refine ⟨?_, ?_, ?_, ?_, ?_, ?_⟩
        · have hf := c.frame
          rw [hf]
          simp only [State.mk.injEq]
          refine ⟨trivial, by omega, ?_⟩
          simp
        · have hb := c.inBounds
          simp only at hb
          omega
        · intro i hi hD hD0
          cases i with
          | zero =>
            have ho := c.outside (s.wc - s.prevDist.toNat) (.inl (by simp only; omega))
            simp only at ho
            rw [Memory.read_write_other _ _ _ _ (by omega)] at ho
            rw [Nat.add_zero, ho, hwc, hread]
          | succ i =>
            have hp := c.back i (by omega) (by simp only; omega) hD0
            simp only at hp
            rw [show s.wc + (i + 1) = s.wc + 1 + i by omega]
            exact hp
        · intro i hi
          cases i with
          | zero => rw [Nat.add_zero, hwc]; rfl
          | succ i =>
            have hp := c.present i (by omega)
            simp only at hp
            rw [show s.wc + (i + 1) = s.wc + 1 + i by omega]
            exact hp
        · intro off hoff
          have ho := c.outside off (by simp only; omega)
          simp only at ho
          rw [ho, Memory.read_write_other _ _ _ _ (by omega)]
        · intro hw
          exact c.wf (Memory.wf_write hw _ _)

/-- When the replay engine answers: the guard passed and the bytes it reaches back to are there. -/
theorem replay_total {n : Nat} {s : State} (hD0 : s.prevDist.toNat ≠ 0) (hD : s.prevDist.toNat ≤ s.wc)
    (hcap : n ≤ s.cap - s.wc)
    (hread : ∀ off, s.wc - s.prevDist.toNat ≤ off → off < s.wc → (s.dst.read off).isSome) :
    ∃ t, replay n s = .ok t := by
  induction n generalizing s with
  | zero => exact ⟨s, rfl⟩
  | succ n ih =>
    have h0 := hread (s.wc - s.prevDist.toNat) (Nat.le_refl _) (by omega)
    obtain ⟨b, hb⟩ := Option.isSome_iff_exists.mp h0
    have hr : s.dstRead (s.wc - s.prevDist.toNat) = .ok b := State.dstRead_ok.mpr ⟨by omega, hb⟩
    have hw : s.dstWrite s.wc b = .ok { s with dst := s.dst.write s.wc b } :=
      State.dstWrite_ok.mpr ⟨rfl, by omega, rfl⟩
    simp only [replay, hr, hw]
    apply ih
    · exact hD0
    · show s.prevDist.toNat ≤ s.wc + 1
      omega
    · show n ≤ s.cap - (s.wc + 1)
      omega
    · intro off h1 h2
      simp only at h1 h2
      show ((s.dst.write s.wc b).read off).isSome
      by_cases h : off = s.wc
      · simp [h]
      · rw [Memory.read_write_other _ _ _ _ h]
        exact hread off (by omega) (by omega)

theorem half_eq_zero_iff (x : Half) : x = 0 ↔ x.toNat = 0 := by
  constructor
  · rintro rfl; rfl
  · intro h
    exact BitVec.eq_of_toNat_eq (by simpa using h)

/-- Everything step 6 can do (R128, R142, R150). -/
theorem literalPhase_cases (s : State) :
    (∃ t, literalPhase s = .ok t ∧ Copied s.litLen.toNat s t ∧ (s.litLen = 0 ∨ s.literalFits)) ∨
    (literalPhase s = .error (.trap (s.raiseToken .outOfBounds)) ∧ s.litLen ≠ 0 ∧ ¬ s.literalFits) ∨
    (∃ f, literalPhase s = .error (.fault f) ∧ s.litLen ≠ 0 ∧ s.literalFits ∧
      literalCopy s.litLen.toNat s = .error f) := by
  unfold literalPhase
  by_cases h0 : s.litLen = 0
  · left
    refine ⟨s, if_pos h0, ?_, .inl h0⟩
    have hn : s.litLen.toNat = 0 := (half_eq_zero_iff _).mp h0
    rw [hn]
    exact literalCopy_spec rfl
  · rw [if_neg h0]
    by_cases hf : s.literalFits
    · rw [if_pos hf]
      split
      · rename_i t ht
        exact .inl ⟨t, rfl, literalCopy_spec ht, .inr hf⟩
      · rename_i f hf'
        exact .inr (.inr ⟨f, rfl, h0, hf, hf'⟩)
    · rw [if_neg hf]
      exact .inr (.inl ⟨rfl, h0, hf⟩)

/-- Everything step 7 can do (R128, R143 to R145, R155). -/
theorem matchPhase_cases (s : State) :
    (∃ t, matchPhase s = .ok t ∧ Replayed s.matchLen.toNat s t ∧ (s.matchLen = 0 ∨ s.matchFits)) ∨
    (matchPhase s = .error (.trap (s.raiseToken .outOfBounds)) ∧ s.matchLen ≠ 0 ∧ ¬ s.matchFits) ∨
    (∃ f, matchPhase s = .error (.fault f) ∧ s.matchLen ≠ 0 ∧ s.matchFits ∧ replay s.matchLen.toNat s = .error f) := by
  unfold matchPhase
  by_cases h0 : s.matchLen = 0
  · left
    refine ⟨s, if_pos h0, ?_, .inl h0⟩
    have hn : s.matchLen.toNat = 0 := (half_eq_zero_iff _).mp h0
    rw [hn]
    exact replay_spec rfl
  · rw [if_neg h0]
    by_cases hf : s.matchFits
    · rw [if_pos hf]
      split
      · rename_i t ht
        exact .inl ⟨t, rfl, replay_spec ht, .inr hf⟩
      · rename_i f hf'
        exact .inr (.inr ⟨f, rfl, h0, hf, hf'⟩)
    · rw [if_neg hf]
      exact .inr (.inl ⟨rfl, h0, hf⟩)

/-- Step 6 passes when there is no literal, or its guard passes and its payload is there. -/
theorem literalPhase_ok {s : State} (hf : s.litLen = 0 ∨ s.literalFits)
    (hread : ∀ i, i < s.litLen.toNat → (s.src.read (s.rc + i)).isSome) :
    ∃ t, literalPhase s = .ok t ∧ Copied s.litLen.toNat s t := by
  rcases literalPhase_cases s with ⟨t, h, c, -⟩ | ⟨-, h0, hn⟩ | ⟨f, -, h0, hfit, hc⟩
  · exact ⟨t, h, c⟩
  · rcases hf with h | h
    · exact absurd h h0
    · exact absurd h hn
  · obtain ⟨t, ht⟩ := literalCopy_total hfit.1 hfit.2 hread
    rw [ht] at hc
    cases hc

/-- Step 7 passes when there is no match, or its guard passes and the bytes it reaches back to are there. -/
theorem matchPhase_ok {s : State} (hf : s.matchLen = 0 ∨ s.matchFits)
    (hread : s.matchLen ≠ 0 →
      ∀ off, s.wc - s.prevDist.toNat ≤ off → off < s.wc → (s.dst.read off).isSome) :
    ∃ t, matchPhase s = .ok t ∧ Replayed s.matchLen.toNat s t := by
  rcases matchPhase_cases s with ⟨t, h, c, -⟩ | ⟨-, h0, hn⟩ | ⟨f, -, h0, hfit, hc⟩
  · exact ⟨t, h, c⟩
  · rcases hf with h | h
    · exact absurd h h0
    · exact absurd h hn
  · obtain ⟨t, ht⟩ := replay_total hfit.2.1 hfit.1 hfit.2.2 (hread h0)
    rw [ht] at hc
    cases hc

/-- Step 6 traps exactly when there is a literal and its guard fails (R142). -/
theorem literalPhase_trap {s : State} (h0 : s.litLen ≠ 0) (hn : ¬ s.literalFits) :
    literalPhase s = .error (.trap (s.raiseToken .outOfBounds)) := by
  rw [literalPhase, if_neg h0, if_neg hn]

/-- Step 7 traps exactly when there is a match and its guard fails (R143 to R145). -/
theorem matchPhase_trap {s : State} (h0 : s.matchLen ≠ 0) (hn : ¬ s.matchFits) :
    matchPhase s = .error (.trap (s.raiseToken .outOfBounds)) := by
  rw [matchPhase, if_neg h0, if_neg hn]

/-- The cyclic form of a replay (R157): the last `D` bytes of the output, over and over. -/
theorem Replayed.cyclic {n : Nat} {s t : State} (r : Replayed n s t) (hD0 : s.prevDist.toNat ≠ 0)
    (hD : s.prevDist.toNat ≤ s.wc) (i : Nat) (hi : i < n) :
    t.dst.read (s.wc + i) = s.dst.read (s.wc - s.prevDist.toNat + i % s.prevDist.toNat) := by
  induction i using Nat.strongRecOn with
  | ind i ih =>
    rw [r.back i hi hD hD0]
    by_cases h : i < s.prevDist.toNat
    · rw [Nat.mod_eq_of_lt h, r.outside _ (.inl (by omega))]
      congr 1
      omega
    · have := ih (i - s.prevDist.toNat) (by omega) (by omega)
      rw [show s.wc + i - s.prevDist.toNat = s.wc + (i - s.prevDist.toNat) by omega, this]
      rw [← Nat.mod_eq_sub_mod (by omega)]

/-- Everything steps 6 and 7 can do together, if they answer a next state: both completed, the literal's guard trapped
and nothing was written, or the literal was copied and the match's guard trapped. -/
theorem runCopies_next {s t : State} (h : runCopies s = .next t) :
    (∃ u, Copied s.litLen.toNat s u ∧ Replayed u.matchLen.toNat u t ∧
      (s.litLen = 0 ∨ s.literalFits) ∧ (u.matchLen = 0 ∨ u.matchFits)) ∨
    (t = s.raiseToken .outOfBounds ∧ s.litLen ≠ 0 ∧ ¬ s.literalFits) ∨
    (∃ u, Copied s.litLen.toNat s u ∧ (s.litLen = 0 ∨ s.literalFits) ∧
      t = u.raiseToken .outOfBounds ∧ u.matchLen ≠ 0 ∧ ¬ u.matchFits) := by
  unfold runCopies at h
  rcases literalPhase_cases s with ⟨u, hl, c, hf⟩ | ⟨hl, h0, hn⟩ | ⟨f, hl, -, -, -⟩
  · simp only [hl] at h
    rcases matchPhase_cases u with ⟨v, hm, r, hg⟩ | ⟨hm, h0, hn⟩ | ⟨f, hm, -, -, -⟩
    · simp only [hm, settle, Host.Outcome.next.injEq] at h
      subst h
      exact .inl ⟨u, c, r, hf, hg⟩
    · simp only [hm, settle, Host.Outcome.next.injEq] at h
      exact .inr (.inr ⟨u, c, hf, h.symm, h0, hn⟩)
    · simp [hm, settle] at h
  · simp only [hl, settle, Host.Outcome.next.injEq] at h
    exact .inr (.inl ⟨h.symm, h0, hn⟩)
  · simp [hl, settle] at h

/-- The registers a literal copy leaves alone, for rewriting. -/
theorem Copied.regs {n : Nat} {s u : State} (c : Copied n s u) :
    u.rc = s.rc + n ∧ u.wc = s.wc + n ∧ u.cap = s.cap ∧ u.prevDist = s.prevDist ∧ u.matchLen = s.matchLen ∧
    u.litLen = s.litLen ∧ u.inSize = s.inSize ∧ u.src = s.src ∧ u.opcode = s.opcode ∧ u.opOffset = s.opOffset := by
  rw [c.frame]
  simp

/-- When steps 6 and 7 both complete. -/
theorem runCopies_complete {s : State} (hl : s.litLen = 0 ∨ s.literalFits)
    (hsrc : ∀ i, i < s.litLen.toNat → (s.src.read (s.rc + i)).isSome)
    (hm : s.matchLen = 0 ∨ (s.prevDist.toNat ≤ s.wc + s.litLen.toNat ∧ s.prevDist.toNat ≠ 0 ∧
      s.matchLen.toNat ≤ s.cap - (s.wc + s.litLen.toNat)))
    (hdst : s.matchLen ≠ 0 →
      ∀ off, s.wc + s.litLen.toNat - s.prevDist.toNat ≤ off → off < s.wc → (s.dst.read off).isSome) :
    ∃ u t, runCopies s = .next t ∧ Copied s.litLen.toNat s u ∧ Replayed u.matchLen.toNat u t := by
  obtain ⟨u, hu, c⟩ := literalPhase_ok hl hsrc
  obtain ⟨hrc, hwc, hcap, hpd, hml, -, -, -, -, -⟩ := c.regs
  have hm' : u.matchLen = 0 ∨ u.matchFits := by
    rcases hm with h | ⟨h1, h2, h3⟩
    · exact .inl (hml.trans h)
    · right
      refine ⟨?_, ?_, ?_⟩
      · rw [hpd, hwc]; exact h1
      · rw [hpd]; exact h2
      · rw [hml, hcap, hwc]; exact h3
  have hd : u.matchLen ≠ 0 →
      ∀ off, u.wc - u.prevDist.toNat ≤ off → off < u.wc → (u.dst.read off).isSome := by
    intro h0 off h1 h2
    rw [hpd, hwc] at h1
    rw [hwc] at h2
    by_cases h : off < s.wc
    · rw [c.outside off (.inl h)]
      exact hdst (hml ▸ h0) off h1 h
    · have hp := c.payload (off - s.wc) (by omega)
      rw [show s.wc + (off - s.wc) = off by omega] at hp
      rw [hp]
      exact c.present (off - s.wc) (by omega)
  obtain ⟨t, ht, r⟩ := matchPhase_ok hm' hd
  exact ⟨u, t, by simp [runCopies, hu, ht, settle], c, r⟩

end Sys2Proof.Machine
end

