-- ==== Sys2Proof/Laws/PerInstr.lean ====
section
/-! SUPPORT. Families of laws, one lemma per constructor of Instr.
EncodedType: the first byte of a well-formed token's encoding classifies as the token's own type, and the encoding is
that byte with the type's extra bytes. -/

namespace Sys2Proof.Laws.EncodedType

/-- R81, R82, R85: the encoding's first byte is of the token's type, and its length is 1 and the extra bytes. -/
def Statement (i : Instr) : Prop :=
  i.WellFormed → classify ((encode i).getD 0 0) = i.opType ∧ (encode i).length = 1 + extraBytes i.opType

theorem distanceLarge (lit : BitVec 2) (m : BitVec 3) (d : BitVec 16) : Statement (.distanceLarge lit m d) := by
  intro h
  refine ⟨?_, rfl⟩
  have key : ∀ (lit : BitVec 2) (m : BitVec 3), pairEncodable lit m = true →
      classify (lit ++ m ++ 0b111#3) = .distanceLarge := by decide
  exact key lit m h

theorem distanceMedium (lit : BitVec 2) (m : BitVec 5) (d : BitVec 14) : Statement (.distanceMedium lit m d) := by
  intro _
  refine ⟨?_, rfl⟩
  have key : ∀ (lit : BitVec 2) (x : BitVec 3), classify (0b101#3 ++ lit ++ x) = .distanceMedium := by decide
  exact key lit _

theorem distanceSmall (lit : BitVec 2) (m : BitVec 3) (d : BitVec 11) : Statement (.distanceSmall lit m d) := by
  intro h
  refine ⟨?_, rfl⟩
  have key : ∀ (lit : BitVec 2) (m x : BitVec 3), pairEncodable lit m = true → x.toNat ≤ 5 →
      classify (lit ++ m ++ x) = .distanceSmall := by decide
  have h' : pairEncodable lit m = true ∧ d.toNat ≤ 1535 := by simpa [Instr.WellFormed, Instr.check] using h
  refine key lit m _ h'.1 ?_
  rw [BitVec.extractLsb'_toNat, Nat.shiftRight_eq_div_pow]
  have := h'.2
  omega

theorem distancePrevious (lit : BitVec 2) (m : BitVec 3) : Statement (.distancePrevious lit m) := by
  intro h
  refine ⟨?_, rfl⟩
  have key : ∀ (lit : BitVec 2) (m : BitVec 3), (Instr.distancePrevious lit m).check = true →
      classify (lit ++ m ++ 0b110#3) = .distancePrevious := by decide
  exact key lit m h

theorem literalLarge (n : BitVec 8) : Statement (.literalLarge n) := fun _ => ⟨rfl, rfl⟩

theorem literalSmall (n : BitVec 4) : Statement (.literalSmall n) := by
  intro h
  refine ⟨?_, rfl⟩
  have key : ∀ n : BitVec 4, (Instr.literalSmall n).check = true → classify (0b1110#4 ++ n) = .literalSmall := by decide
  exact key n h

theorem matchLarge (n : BitVec 8) : Statement (.matchLarge n) := fun _ => ⟨rfl, rfl⟩

theorem matchSmall (n : BitVec 4) : Statement (.matchSmall n) := by
  intro h
  refine ⟨?_, rfl⟩
  have key : ∀ n : BitVec 4, (Instr.matchSmall n).check = true → classify (0b1111#4 ++ n) = .matchSmall := by decide
  exact key n h

theorem endOfStream : Statement .endOfStream := fun _ => ⟨rfl, rfl⟩

theorem noOp (b : Byte) : Statement (.noOp b) := by
  intro h
  refine ⟨?_, rfl⟩
  have h' : b = 0x0E ∨ b = 0x16 := by simpa [Instr.WellFormed, Instr.check] using h
  rcases h' with rfl | rfl <;> rfl

set_option maxRecDepth 4000 in
theorem invalid (b : Byte) : Statement (.invalid b) := by
  intro h
  refine ⟨?_, rfl⟩
  have key : ∀ b : Byte, isInvalidByte b = true → classify b = .invalid := by decide
  exact key b h

end Sys2Proof.Laws.EncodedType
end

