-- ==== Sys2Proof/Laws/Step.lean ====
section
/-! SUPPORT. The step opened once: whose turn it is, what a fetch leaves, what a token's meaning can answer, and what one
iteration of the loop can answer. -/

namespace Sys2Proof.Machine

/-- The state a token's meaning copies in: its lengths and the distance it replays at (R24, R125). -/
def State.extracted (s : State) (i : Instr) : State :=
  { s with litLen := literalLength i, matchLen := matchLength i, prevDist := (ownDistance i).getD s.prevDist }

@[simp] theorem State.extracted_litLen (s : State) (i : Instr) : (s.extracted i).litLen = literalLength i := rfl
@[simp] theorem State.extracted_matchLen (s : State) (i : Instr) : (s.extracted i).matchLen = matchLength i := rfl
@[simp] theorem State.extracted_prevDist (s : State) (i : Instr) :
    (s.extracted i).prevDist = (ownDistance i).getD s.prevDist := rfl

/-- Every copying token's meaning is the two phases after extraction; the control tokens' meanings are one update. -/
theorem exec_eq (i : Instr) (s : State) :
    exec i s = match i.opType with
      | .endOfStream => .next (s.stop .eos)
      | .noOp => .next s
      | .invalid => .next (s.raiseToken .invalidOpcode)
      | _ => runCopies (s.extracted i) := by
  cases i <;> rfl

/-- The meaning of a token with a literal or a match. -/
theorem exec_copying {i : Instr} (h1 : i.opType ≠ .endOfStream) (h2 : i.opType ≠ .noOp) (h3 : i.opType ≠ .invalid)
    (s : State) : exec i s = runCopies (s.extracted i) := by
  rw [exec_eq]
  split <;> first | contradiction | rfl

theorem step_of_turn {s s0 : State} {m : HostMove} (h : s.turn = (m, s0)) : step s = s0.hostAct m := by
  rw [step, h]

/-- One step of a run. -/
theorem core_run_succ {n : Nat} {s t : State} (h : step s = .next t) :
    Host.Core.run Sys2Proof.core (n + 1) s = Host.Core.run Sys2Proof.core n t := by
  have all : ∀ (C : Host.Core) {a b : C.State}, C.step a = .next b → C.run (n + 1) a = C.run n b := by
    intro C a b e
    simp only [Host.Core.run, e]
  exact all Sys2Proof.core h

theorem turn_nil {s : State} (h : s.schedule = []) : s.turn = (.rest, s) := by
  rw [State.turn, h]

theorem turn_cons {s : State} {m : HostMove} {ms : List HostMove} (h : s.schedule = m :: ms) :
    s.turn = (m, { s with schedule := ms }) := by
  rw [State.turn, h]

/-- Taking the turn changes the plan and nothing else. -/
theorem turn_frame {s s0 : State} {m : HostMove} (h : s.turn = (m, s0)) : s0 = { s with schedule := s0.schedule } := by
  unfold State.turn at h
  split at h <;> (cases h; rfl)

/-- The fetch of the opcode (R122, R123). -/
theorem fetchOpcode_ok {s t : State} :
    fetchOpcode s = .ok t ↔ ∃ b, s.rc < s.inSize ∧ s.src.read s.rc = some b ∧
      t = { s with opOffset := s.rc, opcode := b, rc := s.rc + 1, optype := classify b,
                   e1 := 0, e2 := 0, litLen := 0, matchLen := 0 } := by
  unfold fetchOpcode
  split
  · rename_i f hf
    constructor
    · intro h; cases h
    · rintro ⟨b, h1, h2, -⟩
      rw [State.srcRead_ok.mpr ⟨h1, h2⟩] at hf
      cases hf
  · rename_i b hb
    obtain ⟨h1, h2⟩ := State.srcRead_ok.mp hb
    constructor
    · intro h
      cases h
      exact ⟨b, h1, h2, rfl⟩
    · rintro ⟨c, -, hc, rfl⟩
      rw [h2] at hc
      cases hc
      rfl

theorem State.srcRead_present {s : State} {off : Nat} (h1 : off < s.inSize) (h2 : (s.src.read off).isSome) :
    ∃ b, s.srcRead off = .ok b := by
  obtain ⟨b, hb⟩ := Option.isSome_iff_exists.mp h2
  exact ⟨b, State.srcRead_ok.mpr ⟨h1, hb⟩⟩

/-- The extra bytes read (R124): present, below `IN_SIZE`, and nothing but `E1`, `E2` and `RC` changed. -/
theorem readExtra_ok {n : Nat} {s t : State} (hn : n ≤ 2) (he1 : s.e1 = 0) (he2 : s.e2 = 0) :
    readExtra n s = .ok t ↔
      (∀ k, k < n → s.rc + k < s.inSize ∧ (s.src.read (s.rc + k)).isSome) ∧
      t = { s with e1 := if 1 ≤ n then (s.src.read s.rc).getD 0 else 0,
                   e2 := if 2 ≤ n then (s.src.read (s.rc + 1)).getD 0 else 0, rc := s.rc + n } := by
  have h012 : n = 0 ∨ n = 1 ∨ n = 2 := by omega
  rcases h012 with rfl | rfl | rfl
  · simp only [readExtra, Except.ok.injEq]
    constructor
    · rintro rfl
      refine ⟨fun k hk => absurd hk (by omega), ?_⟩
      cases s
      simp_all
    · rintro ⟨-, rfl⟩
      cases s
      simp_all
  · simp only [readExtra]
    split
    · rename_i f hf
      constructor
      · intro h; cases h
      · rintro ⟨h, -⟩
        obtain ⟨b, hb⟩ := State.srcRead_present (h 0 (by omega)).1 (h 0 (by omega)).2
        rw [Nat.add_zero, hf] at hb
        cases hb
    · rename_i b hb
      obtain ⟨h1, h2⟩ := State.srcRead_ok.mp hb
      constructor
      · intro h
        cases h
        refine ⟨?_, ?_⟩
        · intro k hk
          obtain rfl : k = 0 := by omega
          exact ⟨h1, by simp [h2]⟩
        · cases s; simp_all
      · rintro ⟨-, rfl⟩
        cases s; simp_all
  · simp only [readExtra]
    split
    · rename_i f hf
      constructor
      · intro h; cases h
      · rintro ⟨h, -⟩
        obtain ⟨b, hb⟩ := State.srcRead_present (h 0 (by omega)).1 (h 0 (by omega)).2
        rw [Nat.add_zero, hf] at hb
        cases hb
    · rename_i b hb
      obtain ⟨h1, h2⟩ := State.srcRead_ok.mp hb
      split
      · rename_i f hf
        constructor
        · intro h; cases h
        · rintro ⟨h, -⟩
          obtain ⟨b, hb⟩ := State.srcRead_present (h 1 (by omega)).1 (h 1 (by omega)).2
          rw [hf] at hb
          cases hb
      · rename_i c hc
        obtain ⟨h3, h4⟩ := State.srcRead_ok.mp hc
        constructor
        · intro h
          cases h
          refine ⟨?_, ?_⟩
          · intro k hk
            have hk' : k = 0 ∨ k = 1 := by omega
            rcases hk' with rfl | rfl
            · exact ⟨h1, by simp [h2]⟩
            · exact ⟨h3, by simp [h4]⟩
          · simp [h2, h4]
        · rintro ⟨-, rfl⟩
          simp [h2, h4]

/-- The state a whole fetch leaves, for a token whose opcode byte is `b`. -/
def State.afterFetch (s : State) (b : Byte) : State :=
  { s with
    opOffset := s.rc
    opcode := b
    optype := classify b
    e1 := if 1 ≤ extraBytes (classify b) then (s.src.read (s.rc + 1)).getD 0 else 0
    e2 := if 2 ≤ extraBytes (classify b) then (s.src.read (s.rc + 2)).getD 0 else 0
    litLen := 0
    matchLen := 0
    rc := s.rc + 1 + extraBytes (classify b) }

/-- The state in which TruncatedInput is recorded (R141). -/
def State.truncatedAt (s : State) (b : Byte) : State :=
  { s with
    opOffset := s.rc
    opcode := b
    rc := s.rc + 1
    optype := classify b
    e1 := 0
    e2 := 0
    litLen := 0
    matchLen := 0
    errKind := .truncatedInput
    errOpcode := b
    errOffset := s.rc
    runState := .fault }

/-- Steps 2 to 7 when the opcode byte and all the extra bytes of its type are present: the token's meaning runs. -/
theorem tokenStep_fits {s : State} {b : Byte} (hlt : s.rc < s.inSize) (hb : s.src.read s.rc = some b)
    (hfit : extraBytes (classify b) ≤ s.inSize - (s.rc + 1))
    (hx : ∀ k, k < extraBytes (classify b) → (s.src.read (s.rc + 1 + k)).isSome) :
    tokenStep s = exec (s.afterFetch b).token (s.afterFetch b) := by
  have h1 := (fetchOpcode_ok (s := s)).mpr ⟨b, hlt, hb, rfl⟩
  have h2 := (readExtra_ok (n := extraBytes (classify b))
    (s := { s with opOffset := s.rc, opcode := b, rc := s.rc + 1, optype := classify b,
                   e1 := 0, e2 := 0, litLen := 0, matchLen := 0 })
    (t := s.afterFetch b) (extraBytes_le_two _) rfl rfl).mpr
    ⟨fun k hk => ⟨by simp only; omega, hx k hk⟩, rfl⟩
  simp only [tokenStep, h1]
  unfold fetchExtra
  rw [if_pos hfit]
  simp only [h2]

/-- Steps 2 to 7 when the opcode byte is present and its extra bytes are not all below `IN_SIZE` (R141). -/
theorem tokenStep_truncated {s : State} {b : Byte} (hlt : s.rc < s.inSize) (hb : s.src.read s.rc = some b)
    (hshort : s.inSize - (s.rc + 1) < extraBytes (classify b)) : tokenStep s = .next (s.truncatedAt b) := by
  have h1 := (fetchOpcode_ok (s := s)).mpr ⟨b, hlt, hb, rfl⟩
  simp only [tokenStep, h1]
  unfold fetchExtra
  rw [if_neg (Nat.not_le.mpr hshort)]
  rfl

/-- Everything steps 2 to 7 can do, if they answer a next state. -/
theorem tokenStep_next {s t : State} (h : tokenStep s = .next t) :
    ∃ b, s.rc < s.inSize ∧ s.src.read s.rc = some b ∧
      ((s.inSize - (s.rc + 1) < extraBytes (classify b) ∧ t = s.truncatedAt b) ∨
       (extraBytes (classify b) ≤ s.inSize - (s.rc + 1) ∧
        exec (s.afterFetch b).token (s.afterFetch b) = .next t)) := by
  unfold tokenStep at h
  split at h
  · cases h
  · rename_i u hu
    obtain ⟨b, hlt, hb, rfl⟩ := fetchOpcode_ok.mp hu
    refine ⟨b, hlt, hb, ?_⟩
    unfold fetchExtra at h
    by_cases hfit : extraBytes (classify b) ≤ s.inSize - (s.rc + 1)
    · right
      refine ⟨hfit, ?_⟩
      rw [if_pos hfit] at h
      split at h
      · rename_i e he
        split at he
        · cases he
        · cases he
          simp [settle] at h
      · rename_i v hv
        split at hv
        · rename_i w hw
          cases hv
          obtain ⟨-, rfl⟩ := (readExtra_ok (extraBytes_le_two _) rfl rfl).mp hw
          exact h
        · cases hv
    · left
      refine ⟨by omega, ?_⟩
      rw [if_neg hfit] at h
      simp only [settle, Host.Outcome.next.injEq] at h
      rw [← h]
      rfl

/-- Everything the engine's turn can do (R120, R121, R26). -/
theorem engineStep_next {s t : State} (h : engineStep s = .next t) :
    (s.runState ≠ .run ∧ t = s) ∨
    (s.runState = .run ∧
      ((s.rc = s.inSize ∧ t = s.stop .inputEnd) ∨
       (s.rc ≠ s.inSize ∧ s.wc = s.cap ∧ t = s.stop .outputFull) ∨
       (s.rc ≠ s.inSize ∧ s.wc ≠ s.cap ∧ tokenStep s = .next t))) := by
  unfold engineStep at h
  split at h <;> rename_i hs
  · right
    refine ⟨hs, ?_⟩
    unfold runStep at h
    split at h
    · rename_i h1
      cases h
      exact .inl ⟨h1, rfl⟩
    · rename_i h1
      split at h
      · rename_i h2
        cases h
        exact .inr (.inl ⟨h1, h2, rfl⟩)
      · rename_i h2
        exact .inr (.inr ⟨h1, h2, h⟩)
  all_goals
    left
    cases h
    exact ⟨by simp [hs], rfl⟩

/-- The engine's turn in `RUN` when no stop condition holds. -/
theorem engineStep_token {s : State} (h : s.runState = .run) (h1 : s.rc ≠ s.inSize) (h2 : s.wc ≠ s.cap) :
    engineStep s = tokenStep s := by
  unfold engineStep
  rw [h]
  simp [runStep, h1, h2]

/-- What a copying token's meaning can answer, if it answers a next state: complete, trapped by the literal guard with
nothing copied, or trapped by the match guard with the literal copied. -/
theorem exec_next {i : Instr} {s t : State} (h : exec i s = .next t) :
    (i.opType = .endOfStream ∧ t = s.stop .eos) ∨
    (i.opType = .noOp ∧ t = s) ∨
    (i.opType = .invalid ∧ t = s.raiseToken .invalidOpcode) ∨
    ((i.opType ≠ .endOfStream ∧ i.opType ≠ .noOp ∧ i.opType ≠ .invalid) ∧
      ((∃ u, Copied (literalLength i).toNat (s.extracted i) u ∧ Replayed (matchLength i).toNat u t ∧
          (literalLength i = 0 ∨ (s.extracted i).literalFits) ∧ (matchLength i = 0 ∨ u.matchFits)) ∨
       (t = (s.extracted i).raiseToken .outOfBounds ∧ literalLength i ≠ 0 ∧ ¬ (s.extracted i).literalFits) ∨
       (∃ u, Copied (literalLength i).toNat (s.extracted i) u ∧
          (literalLength i = 0 ∨ (s.extracted i).literalFits) ∧
          t = u.raiseToken .outOfBounds ∧ matchLength i ≠ 0 ∧ ¬ u.matchFits))) := by
  by_cases h1 : i.opType = .endOfStream
  · left
    rw [exec_eq, h1] at h
    cases h
    exact ⟨h1, rfl⟩
  by_cases h2 : i.opType = .noOp
  · right; left
    rw [exec_eq, h2] at h
    cases h
    exact ⟨h2, rfl⟩
  by_cases h3 : i.opType = .invalid
  · right; right; left
    rw [exec_eq, h3] at h
    cases h
    exact ⟨h3, rfl⟩
  right; right; right
  refine ⟨⟨h1, h2, h3⟩, ?_⟩
  rw [exec_copying h1 h2 h3] at h
  rcases runCopies_next h with ⟨u, c, r, hf, hg⟩ | ⟨ht, h0, hn⟩ | ⟨u, c, hf, ht, h0, hn⟩
  · obtain ⟨-, -, -, -, hml, -, -, -, -, -⟩ := c.regs
    left
    refine ⟨u, c, ?_, hf, ?_⟩
    · rw [hml] at r; exact r
    · rw [hml] at hg; exact hg
  · exact .inr (.inl ⟨ht, h0, hn⟩)
  · obtain ⟨-, -, -, -, hml, -, -, -, -, -⟩ := c.regs
    exact .inr (.inr ⟨u, c, hf, ht, by rw [hml] at h0; exact h0, hn⟩)

end Sys2Proof.Machine
end

