-- ==== Sys2Proof/Tests/Slice0.lean ====
section
/-! SUPPORT. Tests on single steps, with expected values from spec/95_test_vectors.md and the rules named beside them,
and for every statement with hypotheses a concrete input that meets them (`meets_...`). -/

namespace Sys2Proof.Tests

open Sys2Proof Sys2Proof.Machine

/-! ### Small states -/

/-- A running call: the rest of the input at offset 0, the output so far, the carried distance, the capacity. -/
def call (input output : List Byte) (prev : Half) (cap : Nat) : State :=
  { State.reset with
    runState := .run
    src := Memory.ofBytes input
    inSize := input.length
    dst := Memory.ofBytes output
    wc := output.length
    prevDist := prev
    cap := cap }

/-- What the tests look at: `STATE`, `RC`, `WC`, `PREV_DIST` and the output so far. -/
structure Shown where
  runState : RunState
  rc : Nat
  wc : Nat
  prevDist : Half
  output : List (Option Byte)
deriving DecidableEq, Repr

/-- These after a step. -/
def outcome : Result → Option Shown
  | .next t => some ⟨t.runState, t.rc, t.wc, t.prevDist, (List.range t.wc).map t.dst.read⟩
  | .fault _ => none
  | .refused _ => none

/-- `STATE`, the error record and `WC` after a step. -/
def record : Result → Option (RunState × ErrKind × Byte × Nat × Nat)
  | .next t => some (t.runState, t.errKind, t.errOpcode, t.errOffset, t.wc)
  | .fault _ => none
  | .refused _ => none

/-- `STATE`, `STOP_REASON`, `DST_CAP` and `RC` after a step. -/
def ending : Result → Option (RunState × StopReason × Nat × Nat)
  | .next t => some (t.runState, t.stopReason, t.dstCap, t.rc)
  | .fault _ => none
  | .refused _ => none

/-- Every such call is sound when the output fits and the carried distance lies within it. -/
theorem call_inv (input output : List Byte) (prev : Half) (cap : Nat) (h : output.length ≤ cap)
    (hp : prev.toNat ≤ output.length) : (call input output prev cap).Inv := by
  refine ⟨Memory.wf_ofBytes _, Memory.wf_ofBytes _, fun _ => ⟨Nat.zero_le _, h, hp, ?_, ?_⟩⟩
  · intro off ho
    simpa [call, Memory.read_ofBytes] using ho
  · intro off ho
    simpa [call, Memory.read_ofBytes] using ho

/-! ### WellFormed: an ill-formed term for each check -/

-- R87: DISTANCE_LARGE with L = 3, M = 5 is not encodable
theorem test_large_pair_refused : ¬ (Instr.distanceLarge 3 2 7).WellFormed := by decide
-- R84: DISTANCE_SMALL carries a distance of at most 1535
theorem test_small_distance_refused : ¬ (Instr.distanceSmall 0 0 1536).WellFormed := by decide
-- R87: DISTANCE_SMALL with L = 1, M = 9
theorem test_small_pair_refused : ¬ (Instr.distanceSmall 1 6 1).WellFormed := by decide
-- R81: DISTANCE_PREVIOUS needs LL not 0
theorem test_previous_zero_literal_refused : ¬ (Instr.distancePrevious 0 0).WellFormed := by decide
-- R87: DISTANCE_PREVIOUS with L = 2, M = 7
theorem test_previous_pair_refused : ¬ (Instr.distancePrevious 2 4).WellFormed := by decide
-- R81: the byte 0xE0 is LITERAL_LARGE, 0xF0 is MATCH_LARGE
theorem test_literal_small_zero_refused : ¬ (Instr.literalSmall 0).WellFormed := by decide
theorem test_match_small_zero_refused : ¬ (Instr.matchSmall 0).WellFormed := by decide
-- R85: 0x1E is INVALID, not NONE; 0x06 is END_OF_STREAM, not INVALID
theorem test_none_byte_refused : ¬ (Instr.noOp 0x1E).WellFormed := by decide
theorem test_invalid_byte_refused : ¬ (Instr.invalid 0x06).WellFormed := by decide

/-! ### Decoding: a word written out for each constructor, from R81 and 95_test_vectors.md V2 -/

theorem test_decode_distanceLarge : decode [0b10001111, 0x04, 0x00] = .ok (.distanceLarge 0b10 0b001 4, []) := by decide
theorem test_decode_distanceLarge_order : decode [0x3F, 0x34, 0x12] = .ok (.distanceLarge 0 7 0x1234, []) := by decide
theorem test_decode_distanceMedium :
    decode [0b10101100, 0b00001101, 0x00] = .ok (.distanceMedium 0b01 0b10001 3, []) := by decide
theorem test_decode_distanceMedium_most : decode [0xBF, 0xFF, 0xFF] = .ok (.distanceMedium 3 31 16383, []) := by decide
theorem test_decode_distanceSmall : decode [0b01001010, 0x02] = .ok (.distanceSmall 0b01 0b001 0b01000000010, []) := by
  decide
theorem test_decode_distanceSmall_most : decode [0xC5, 0xFF] = .ok (.distanceSmall 3 0 1535, []) := by decide
theorem test_decode_distancePrevious : decode [0b01101110] = .ok (.distancePrevious 0b01 0b101, []) := by decide
theorem test_decode_literalLarge : decode [0xE0, 0x00, 0x30] = .ok (.literalLarge 0, [0x30]) := by decide
theorem test_decode_literalSmall : decode [0b11101111, 0x61] = .ok (.literalSmall 0b1111, [0x61]) := by decide
theorem test_decode_matchLarge : decode [0xF0, 0xFF] = .ok (.matchLarge 255, []) := by decide
theorem test_decode_matchSmall : decode [0b11110101] = .ok (.matchSmall 0b0101, []) := by decide
theorem test_decode_endOfStream : decode [0x06, 0x70] = .ok (.endOfStream, [0x70]) := by decide
theorem test_decode_noOp : decode [0x0E] = .ok (.noOp 0x0E, []) ∧ decode [0x16] = .ok (.noOp 0x16, []) := by decide
theorem test_decode_invalid : decode [0x70] = .ok (.invalid 0x70, []) ∧ decode [0x1E] = .ok (.invalid 0x1E, []) := by
  decide
theorem test_decode_truncated : decode [0x07, 0x01] = .error .truncated ∧ decode [] = .error .noByte := by decide
-- the table's numbering: extra bytes count on from bit 8
theorem test_decodeTableWord : decodeTableWord 24 0x00048F = some (.distanceLarge 2 1 4) ∧
    decodeTableWord 8 0x07 = some (.distanceLarge 0 0 0) := by decide
-- R84, R93: 95_test_vectors.md V2 read backwards
theorem test_encode : encode (.distanceMedium 1 17 3) = [0xAC, 0x0D, 0x00] ∧
    encode (.distanceSmall 3 1 1280) = [0xCD, 0x00] ∧ encode (.distanceLarge 3 1 65535) = [0xCF, 0xFF, 0xFF] := by decide

/-! ### One step of each token, values from 95_test_vectors.md -/

-- V3: literal "zw", then 4 bytes at distance 4
theorem test_step_distanceLarge : outcome (step (call [0x8F, 0x04, 0x00, 0x7A, 0x77] [0x61, 0x62, 0x63, 0x64] 9 64)) =
    some ⟨.run, 5, 10, 4, [0x61, 0x62, 0x63, 0x64, 0x7A, 0x77, 0x63, 0x64, 0x7A, 0x77].map some⟩ := by decide
-- V3: D = 256 > 1
theorem test_step_distanceLarge_far : record (step (call [0x07, 0x00, 0x01] [0x41] 0 64)) =
    some (.fault, .outOfBounds, 0x07, 0, 1) := by decide
-- V4: literal "!" then 20 bytes at distance 3
theorem test_step_distanceMedium : outcome (step (call [0xAC, 0x0D, 0x00, 0x21] [0x61, 0x62, 0x63] 0 24)) =
    some ⟨.run, 4, 24, 3, [0x61, 0x62, 0x63, 0x21, 0x62, 0x63, 0x21, 0x62, 0x63, 0x21, 0x62, 0x63, 0x21, 0x62, 0x63,
      0x21, 0x62, 0x63, 0x21, 0x62, 0x63, 0x21, 0x62, 0x63].map some⟩ := by decide
-- V4: the literal guard fails first, L = 3 with no input left
theorem test_step_distanceMedium_literal : record (step (call [0xBF, 0xFF, 0xFF] [0x41] 0 64)) =
    some (.fault, .outOfBounds, 0xBF, 0, 1) := by decide
-- V5: literal "q", then 4 bytes at distance 3
theorem test_step_distanceSmall : outcome (step (call [0x48, 0x03, 0x71] [0x78, 0x79, 0x7A] 0 64)) =
    some ⟨.run, 3, 8, 3, [0x78, 0x79, 0x7A, 0x71, 0x79, 0x7A, 0x71, 0x79].map some⟩ := by decide
-- V5: the literal is copied, then D = 514 > 3
theorem test_step_distanceSmall_partial : record (step (call [0x4A, 0x02, 0x78] [0x61, 0x62] 0 64)) =
    some (.fault, .outOfBounds, 0x4A, 0, 3) := by decide
-- V6: literal "B", then 3 bytes at the carried distance 1
theorem test_step_distancePrevious : outcome (step (call [0x46, 0x42] [0x41] 1 64)) =
    some ⟨.run, 2, 5, 1, [0x41, 0x42, 0x42, 0x42, 0x42].map some⟩ := by decide
-- V6: the carried distance is still 0
theorem test_step_distancePrevious_unset : record (step (call [0x46, 0x42] [] 0 64)) =
    some (.fault, .outOfBounds, 0x46, 0, 1) := by decide
-- V7: sixteen bytes; fifteen are not enough
theorem test_step_literalLarge : outcome (step (call [0xE0, 0x00, 0x30, 0x31, 0x32, 0x33, 0x34, 0x35, 0x36, 0x37, 0x38,
    0x39, 0x3A, 0x3B, 0x3C, 0x3D, 0x3E, 0x3F] [] 5 16)) =
    some ⟨.run, 18, 16, 5, [0x30, 0x31, 0x32, 0x33, 0x34, 0x35, 0x36, 0x37, 0x38, 0x39, 0x3A, 0x3B, 0x3C, 0x3D, 0x3E,
      0x3F].map some⟩ := by decide
theorem test_step_literalLarge_short : record (step (call [0xE0, 0x00, 0x30, 0x30, 0x30, 0x30, 0x30, 0x30, 0x30, 0x30,
    0x30, 0x30, 0x30, 0x30, 0x30, 0x30, 0x30] [] 0 64)) = some (.fault, .outOfBounds, 0xE0, 0, 0) := by decide
-- V8: the byte 06 is payload here
theorem test_step_literalSmall : outcome (step (call [0xE1, 0x06] [] 0 64)) = some ⟨.run, 2, 1, 0, [some 0x06]⟩ := by
  decide
theorem test_step_literalSmall_full : record (step (call [0xE2, 0x41, 0x42] [] 0 1)) =
    some (.fault, .outOfBounds, 0xE2, 0, 0) := by decide
-- V9: sixteen bytes at distance 1 fill the output exactly; the opcode alone is truncated
theorem test_step_matchLarge : outcome (step (call [0xF0, 0x00] [0x5A, 0x5A, 0x5A, 0x5A] 1 20)) =
    some ⟨.run, 2, 20, 1, List.replicate 20 (some 0x5A)⟩ := by decide
theorem test_step_matchLarge_truncated : record (step (call [0xF0] [0x5A] 1 64)) =
    some (.fault, .truncatedInput, 0xF0, 0, 1) := by decide
-- V10
theorem test_step_matchSmall : outcome (step (call [0xF5] [0x61, 0x62, 0x61, 0x62, 0x61] 2 64)) =
    some ⟨.run, 1, 10, 2, [0x61, 0x62, 0x61, 0x62, 0x61, 0x62, 0x61, 0x62, 0x61, 0x62].map some⟩ := by decide
theorem test_step_matchSmall_unset : record (step (call [0xF3] [0x41] 0 64)) =
    some (.fault, .outOfBounds, 0xF3, 0, 1) := by decide
-- V11
theorem test_step_endOfStream : ending (step (call [0x06, 0x70, 0xFF] [0x41] 0 64)) = some (.done, .eos, 1, 1) := by
  decide
theorem test_step_endOfStream_full : ending (step (call [0x06] [0x41] 0 1)) = some (.done, .outputFull, 1, 0) := by
  decide
theorem test_step_noOp : outcome (step (call [0x16] [0x61] 1 64)) = some ⟨.run, 1, 1, 1, [some 0x61]⟩ := by decide
theorem test_step_invalid : record (step (call [0xD5] [0x41] 0 64)) = some (.fault, .invalidOpcode, 0xD5, 0, 1) := by
  decide

/-! ### The loop, START and the host -/

-- S7, R133 (a): empty input, and the tie of D11
theorem test_empty_input : ending (step (call [] [] 0 64)) = some (.done, .inputEnd, 0, 0) ∧
    ending (step (call [] [] 0 0)) = some (.done, .inputEnd, 0, 0) := by decide
-- S3: TruncatedInput at either missing byte
theorem test_truncated : record (step (call [0x07] [] 0 64)) = some (.fault, .truncatedInput, 0x07, 0, 0) ∧
    record (step (call [0x07, 0x01] [] 0 64)) = some (.fault, .truncatedInput, 0x07, 0, 0) := by decide
-- V12: START straight after power-on reset
theorem test_start_after_reset : record (step { State.reset with schedule := [.start] }) =
    some (.fault, .invalidArgument, 0, 0, 0) := by decide
/-- A finished call with dirty registers and a valid descriptor of sizes 0 (valid whatever `MAX_SIZE` is), `START` next. -/
def readyToStart : State :=
  { State.reset with
    srcPresent := true, dstPresent := true, rc := 7, wc := 9, prevDist := 4, runState := .done, stopReason := .eos,
    schedule := [.start] }

theorem readyToStart_valid : readyToStart.descriptorValid := ⟨rfl, rfl, Nat.zero_le _, Nat.zero_le _⟩

-- V12: a valid descriptor starts a fresh call
theorem test_start_runs : step readyToStart =
    .next { State.reset with srcPresent := true, dstPresent := true, runState := .run } := by
  have h : step readyToStart = State.unlessRunning { readyToStart with schedule := [] }
    (State.start { readyToStart with schedule := [] }) := rfl
  rw [h, State.unlessRunning, if_neg (by decide), State.start, if_pos ⟨rfl, rfl, Nat.zero_le _, Nat.zero_le _⟩]
  rfl
-- V14: a second START without DST_CAP rewritten runs with the bytes written as its capacity
theorem test_dst_cap_is_overwritten : ending (step { call [0x06] [0x41] 0 64 with dstCap := 64 }) =
    some (.done, .eos, 1, 1) := by decide

/-! ### The host's harness: a token placed right after reset is the next one run -/

theorem test_withFetchWord_literal : outcome (step (State.reset.withFetchWord 8 0xE1)) = some ⟨.run, 2, 1, 0, [some 0]⟩ := by
  decide +kernel
theorem test_withFetchWord_longest : (outcome (step (State.reset.withFetchWord 16 0xFFE0))).map (fun o => (o.runState, o.rc)) =
    some (.run, 273) := by decide +kernel
theorem test_withFetchWord_distance : record (step (State.reset.withFetchWord 24 0x00048F)) =
    some (.fault, .outOfBounds, 0x8F, 0, 2) := by decide +kernel

/-! ### A concrete input for every statement with hypotheses, one for each clause, at the edges of its ranges -/

/-- A call at a token, the host at rest: no stop condition holds. -/
theorem call_fetching (input output : List Byte) (prev : Half) (cap : Nat) (h1 : 0 ≠ input.length)
    (h2 : output.length ≠ cap) : (call input output prev cap).Fetching (call input output prev cap) :=
  ⟨rfl, rfl, h1, h2⟩

/-- Every byte below the output's end can be read. -/
theorem call_readable (input output : List Byte) (prev : Half) (cap lo : Nat) :
    ∀ off, lo ≤ off → off < (call input output prev cap).wc → ((call input output prev cap).dst.read off).isSome := by
  intro off _ ho
  simpa [call, Memory.read_ofBytes] using ho

theorem meets_ClassifierPassesItsChecks :
    0x70 ≤ (0x70 : Byte).toNat ∧ (0xDF : Byte).toNat ≤ 0xDF ∧ classify 0x05 = .distanceSmall ∧
    classify 0xCE = .distancePrevious ∧ classify 0xCF = .distanceLarge := by decide

theorem meets_DecodeOfEncodeIsTheToken :
    (Instr.distanceLarge 3 1 65535).WellFormed ∧ (Instr.distanceMedium 3 31 16383).WellFormed ∧
    (Instr.distanceSmall 0 7 1535).WellFormed ∧ (Instr.distancePrevious 1 5).WellFormed ∧
    (Instr.literalLarge 255).WellFormed ∧ (Instr.literalSmall 15).WellFormed ∧ (Instr.matchLarge 255).WellFormed ∧
    (Instr.matchSmall 1).WellFormed ∧ Instr.endOfStream.WellFormed ∧ (Instr.noOp 0x16).WellFormed ∧
    (Instr.invalid 0xDF).WellFormed := by decide

theorem meets_EncodeOfDecodeIsTheBytes : decode [0xC5, 0xFF, 0x61] = .ok (.distanceSmall 3 0 1535, [0x61]) := by decide

theorem meets_FieldsAssembleAsTabled :
    classify 0x05 = .distanceSmall ∧ classify 0xCF = .distanceLarge ∧ classify 0x6E = .distancePrevious ∧
    classify 0xBF = .distanceMedium ∧ classify 0xE0 = .literalLarge ∧ classify 0xEF = .literalSmall ∧
    classify 0xF0 = .matchLarge ∧ classify 0xFF = .matchSmall ∧ classify 0x06 = .endOfStream ∧
    classify 0x16 = .noOp ∧ classify 0x7F = .invalid := by decide

/-- A running call whose power is cut. -/
def poweredOff : State := { call [0xE1, 0x41] [0x61] 1 64 with schedule := [.powerOnReset] }

theorem meets_PowerOnResetClearsAndGuardsStart :
    poweredOff.schedule = .powerOnReset :: [] ∧ step poweredOff = .next poweredOff.turn.2.powerOn := ⟨rfl, rfl⟩

theorem meets_PowerOnResetIsAlwaysTaken : poweredOff.schedule = .powerOnReset :: [] := rfl

theorem meets_StartCommand_valid : readyToStart.schedule = .start :: [] ∧ readyToStart.runState ≠ .run ∧
    readyToStart.descriptorValid ∧ ∀ off, off < readyToStart.srcSize → (readyToStart.src.read off).isSome :=
  ⟨rfl, by decide, readyToStart_valid, fun _ h => absurd h (Nat.not_lt_zero _)⟩

theorem meets_StartCommand_invalid :
    (({ readyToStart with srcPresent := false } : State).srcPresent = false) ∧
    (({ readyToStart with dstPresent := false } : State).dstPresent = false) ∧
    Config.maxSize < ({ readyToStart with srcSize := Config.maxSize + 1 } : State).srcSize ∧
    Config.maxSize < ({ readyToStart with dstCap := Config.maxSize + 1 } : State).dstCap :=
  ⟨rfl, rfl, Nat.lt_succ_self _, Nat.lt_succ_self _⟩

theorem meets_StartCommand_running :
    ({ call [] [] 0 0 with schedule := [.start] } : State).schedule = .start :: [] ∧
    ({ call [] [] 0 0 with schedule := [.start] } : State).runState = .run := ⟨rfl, rfl⟩

theorem meets_MeaninglessStartsAreRefused_overlap :
    ({ State.reset with schedule := [.startWithOverlap] } : State).schedule = .startWithOverlap :: [] ∧
    ({ State.reset with schedule := [.startWithOverlap] } : State).runState ≠ .run := ⟨rfl, by decide⟩

/-- `MAX_SIZE` is open and may be 0 (R7), in which case no descriptor can promise a byte; for every other value the second
clause is met. -/
theorem meets_MeaninglessStartsAreRefused_short (h : 1 ≤ Config.maxSize) :
    ({ readyToStart with srcSize := 1 } : State).runState ≠ .run ∧
    ({ readyToStart with srcSize := 1 } : State).schedule = .start :: [] ∧
    ({ readyToStart with srcSize := 1 } : State).descriptorValid ∧
    ∃ off, off < ({ readyToStart with srcSize := 1 } : State).srcSize ∧
      ({ readyToStart with srcSize := 1 } : State).src.read off = none :=
  ⟨by decide, rfl, ⟨rfl, rfl, h, Nat.zero_le _⟩, 0, Nat.zero_lt_one, rfl⟩

theorem meets_HostIsShutOutDuringRun :
    (call [0xE1, 0x41] [] 0 64).runState = .run ∧
    ({ call [0xE1, 0x41] [] 0 64 with schedule := [.writeDstCap 1] } : State).schedule = .writeDstCap 1 :: [] ∧
    (HostMove.writeDstCap 1).allowedInRun = false ∧
    ({ call [0xE1, 0x41] [] 0 64 with schedule := [.poll] } : State).schedule = .poll :: [] := ⟨rfl, rfl, rfl, rfl⟩

/-- After reset, with one move planned. -/
def planned (m : HostMove) : State := { State.reset with schedule := [m] }

theorem meets_HostWritesDescriptorAndBuffers : ∀ m, (planned m).runState ≠ .run ∧ (planned m).schedule = m :: [] :=
  fun _ => ⟨nofun, rfl⟩

theorem meets_HostWritesDescriptorAndBuffers_edges :
    0 < 2 ^ Config.aw ∧ 2 ^ Config.aw - 1 < 2 ^ Config.aw ∧ 2 ^ Config.aw ≤ 2 ^ Config.aw :=
  ⟨Nat.two_pow_pos _, Nat.sub_lt (Nat.two_pow_pos _) Nat.one_pos, Nat.le_refl _⟩

theorem meets_HostReadsCodesAndResult : readyToStart.runState = .done ∧ State.reset.runState ≠ .done ∧
    State.reset.runState ≠ .run ∧ (call [] [] 0 0).runState = .run := by decide

theorem meets_NothingSurvivesACall :
    readyToStart.schedule = .start :: [] ∧ readyToStart.runState ≠ .run ∧ readyToStart.descriptorValid ∧
    ({ readyToStart with rc := 0, prevDist := 9, errKind := .outOfBounds, runState := .fault } : State).runState ≠ .run ∧
    ({ readyToStart with rc := 0, prevDist := 9, errKind := .outOfBounds, runState := .fault } : State).src =
      readyToStart.src := ⟨rfl, by decide, readyToStart_valid, by decide, rfl⟩

theorem meets_StopConditions_inputEnd : (call [] [] 0 0).turn = (.rest, call [] [] 0 0) ∧
    (call [] [] 0 0).runState = .run ∧ (call [] [] 0 0).rc = (call [] [] 0 0).inSize := ⟨rfl, rfl, rfl⟩

theorem meets_StopConditions_outputFull : (call [0x70] [] 0 0).turn = (.rest, call [0x70] [] 0 0) ∧
    (call [0x70] [] 0 0).runState = .run ∧ (call [0x70] [] 0 0).rc ≠ (call [0x70] [] 0 0).inSize ∧
    (call [0x70] [] 0 0).wc = (call [0x70] [] 0 0).cap := ⟨rfl, rfl, by decide, rfl⟩

theorem meets_StepRunsTheDecodedToken :
    (call [0x07, 0x01, 0x00] [0x41] 0 64).Fetching (call [0x07, 0x01, 0x00] [0x41] 0 64) ∧
    (call [0x07, 0x01, 0x00] [0x41] 0 64).HasBytes [0x07, 0x01, 0x00] ∧
    decode [0x07, 0x01, 0x00] = .ok (.distanceLarge 0 0 1, []) :=
  ⟨call_fetching _ _ _ _ (by decide) (by decide), ⟨by decide, by decide⟩, by decide⟩

theorem meets_TruncatedTokenTraps : (call [0x07, 0x01] [] 0 64).Fetching (call [0x07, 0x01] [] 0 64) ∧
    (call [0x07, 0x01] [] 0 64).src.read 0 = some 0x07 ∧
    (call [0x07, 0x01] [] 0 64).inSize - (0 + 1) < extraBytes (classify 0x07) :=
  ⟨call_fetching _ _ _ _ (by decide) (by decide), by decide, by decide⟩

theorem meets_NoEngineStepOutsideRun : State.reset.turn = (.rest, State.reset) ∧ State.reset.runState ≠ .run :=
  ⟨rfl, by decide⟩

/-- The distance reaches offset 0, and literal and match fill input and output exactly. -/
theorem meets_DistanceTokensComplete :
    (call [0x7A, 0x77] [0x61, 0x62, 0x63, 0x64] 0 10).CanCopy (0b10 : BitVec 2).toNat ((1 : BitVec 3).toNat + 3) 6 ∧
    (call [0x21] [0x61, 0x62, 0x63] 0 24).CanCopy (1 : BitVec 2).toNat ((17 : BitVec 5).toNat + 3)
      (BitVec.ofNat 16 (4 : BitVec 14).toNat) ∧
    (call [] [0x61, 0x62, 0x63] 0 6).CanCopy (0 : BitVec 2).toNat ((0 : BitVec 3).toNat + 3)
      (BitVec.ofNat 16 (3 : BitVec 11).toNat) ∧
    (call [0x42] [0x41] 1 5).CanCopy (1 : BitVec 2).toNat ((0 : BitVec 3).toNat + 3) 1 :=
  ⟨⟨by decide, by decide, by decide, fun _ => ⟨by decide, by decide, by decide, fun o _ => call_readable _ _ _ _ 0 o (Nat.zero_le _)⟩⟩,
   ⟨by decide, by decide, by decide, fun _ => ⟨by decide, by decide, by decide, fun o _ => call_readable _ _ _ _ 0 o (Nat.zero_le _)⟩⟩,
   ⟨by decide, by decide, by decide, fun _ => ⟨by decide, by decide, by decide, fun o _ => call_readable _ _ _ _ 0 o (Nat.zero_le _)⟩⟩,
   ⟨by decide, by decide, by decide, fun _ => ⟨by decide, by decide, by decide, fun o _ => call_readable _ _ _ _ 0 o (Nat.zero_le _)⟩⟩⟩

theorem meets_LiteralTokensComplete :
    (call (List.replicate 16 0x30) [] 0 16).CanCopy ((0 : BitVec 8).toNat + 16) 0 0 ∧
    (call [0x41] [] 0 1).CanCopy (1 : BitVec 4).toNat 0 0 :=
  ⟨⟨by decide, by decide, by decide, fun h => absurd rfl h⟩, ⟨by decide, by decide, by decide, fun h => absurd rfl h⟩⟩

theorem meets_MatchTokensComplete :
    (call [] [0x5A] 1 17).CanCopy 0 ((0 : BitVec 8).toNat + 16) 1 ∧ (call [] [0x61, 0x62] 2 7).CanCopy 0 (5 : BitVec 4).toNat 2 :=
  ⟨⟨by decide, by decide, by decide, fun _ => ⟨by decide, by decide, by decide, fun o _ => call_readable _ _ _ _ 0 o (Nat.zero_le _)⟩⟩,
   ⟨by decide, by decide, by decide, fun _ => ⟨by decide, by decide, by decide, fun o _ => call_readable _ _ _ _ 0 o (Nat.zero_le _)⟩⟩⟩

theorem meets_EndOfStreamStops :
    (call [0x06] [0x41] 0 64).Fetching (call [0x06] [0x41] 0 64) ∧ (call [0x06] [0x41] 0 64).HasBytes [0x06] :=
  ⟨call_fetching _ _ _ _ (by decide) (by decide), by decide, by decide⟩

theorem meets_NoneOnlyAdvances :
    (call [0x16] [0x41] 1 64).Fetching (call [0x16] [0x41] 1 64) ∧ (call [0x16] [0x41] 1 64).HasBytes [0x16] ∧
    (call [0x0E] [0x41] 1 64).Fetching (call [0x0E] [0x41] 1 64) ∧ (call [0x0E] [0x41] 1 64).HasBytes [0x0E] :=
  ⟨call_fetching _ _ _ _ (by decide) (by decide), ⟨by decide, by decide⟩,
   call_fetching _ _ _ _ (by decide) (by decide), by decide, by decide⟩

theorem meets_InvalidRaisesInvalidOpcode :
    (Instr.invalid 0xDF).WellFormed ∧ (call [0xDF] [0x41] 1 64).Fetching (call [0xDF] [0x41] 1 64) ∧
    (call [0xDF] [0x41] 1 64).HasBytes [0xDF] :=
  ⟨by decide, call_fetching _ _ _ _ (by decide) (by decide), by decide, by decide⟩

theorem meets_LiteralGuardTraps :
    literalLength (.literalSmall 2) ≠ 0 ∧
    (call [0x41] [] 0 64).inSize - (call [0x41] [] 0 64).rc < (literalLength (.literalSmall 2)).toNat ∧
    (call [0x41, 0x42] [] 0 1).cap - (call [0x41, 0x42] [] 0 1).wc < (literalLength (.literalSmall 2)).toNat := by decide

/-- A literal and a match that fit exactly, at a distance that reaches offset 0. -/
theorem meets_guards_passing :
    (literalLength (.distanceSmall 1 0 2)).toNat ≤ (call [0x78] [0x61] 0 5).inSize - (call [0x78] [0x61] 0 5).rc ∧
    (literalLength (.distanceSmall 1 0 2)).toNat ≤ (call [0x78] [0x61] 0 5).cap - (call [0x78] [0x61] 0 5).wc ∧
    ((ownDistance (.distanceSmall 1 0 2)).getD 0).toNat ≤ (call [0x78] [0x61] 0 5).wc + 1 ∧
    (matchLength (.distanceSmall 1 0 2)).toNat ≤ (call [0x78] [0x61] 0 5).cap - ((call [0x78] [0x61] 0 5).wc + 1) ∧
    outcome (exec (.distanceSmall 1 0 2) (call [0x78] [0x61] 0 5)) =
      some ⟨.run, 1, 5, 2, [0x61, 0x78, 0x61, 0x78, 0x61].map some⟩ := by decide

/-- One of the two tests fails at a time: too far by one, too long by one. -/
theorem meets_MatchGuardTraps :
    matchLength (.distanceSmall 1 0 3) ≠ 0 ∧
    (1 ≤ (call [0x78] [0x61] 0 64).inSize - (call [0x78] [0x61] 0 64).rc ∧
      1 ≤ (call [0x78] [0x61] 0 64).cap - (call [0x78] [0x61] 0 64).wc ∧
      (∀ k, k < 1 → ((call [0x78] [0x61] 0 64).src.read ((call [0x78] [0x61] 0 64).rc + k)).isSome) ∧
      (call [0x78] [0x61] 0 64).wc + 1 < ((ownDistance (.distanceSmall 1 0 3)).getD 0).toNat) ∧
    (call [] [0x41] 1 3).cap - ((call [] [0x41] 1 3).wc + 0) < (matchLength (.matchSmall 3)).toNat := by decide

theorem meets_ZeroDistanceTraps :
    (ownDistance (.matchSmall 3)).getD (call [] [0x41] 0 64).prevDist = 0 ∧ matchLength (.matchSmall 3) ≠ 0 ∧
    (ownDistance (.distanceSmall 1 0 0)).getD (call [0x78] [0x61] 1 64).prevDist = 0 ∧
    1 ≤ (call [0x78] [0x61] 1 64).inSize - (call [0x78] [0x61] 1 64).rc ∧
    1 ≤ (call [0x78] [0x61] 1 64).cap - (call [0x78] [0x61] 1 64).wc ∧
    (∀ k, k < 1 → ((call [0x78] [0x61] 1 64).src.read ((call [0x78] [0x61] 1 64).rc + k)).isSome) := by decide

theorem meets_CopyingTokensFrame :
    (Instr.matchSmall 3).opType ≠ .endOfStream ∧ (Instr.matchSmall 3).opType ≠ .noOp ∧
    (Instr.matchSmall 3).opType ≠ .invalid ∧ (outcome (exec (.matchSmall 3) (call [] [0x41] 1 64))).isSome ∧
    (record (exec (.matchSmall 3) (call [] [0x41] 1 3))).isSome := by decide

theorem meets_TrapsComeFromTheTabledTypes :
    (call [0xF3] [0x41] 0 64).Fetching (call [0xF3] [0x41] 0 64) ∧ (record (step (call [0xF3] [0x41] 0 64))).isSome :=
  ⟨call_fetching _ _ _ _ (by decide) (by decide), by decide⟩

/-- A sound running call, at a token, that takes a step to a running state. -/
theorem meets_StepKeepsTheInvariant : (call [0x46, 0x42] [0x41] 1 64).Inv ∧
    outcome (step (call [0x46, 0x42] [0x41] 1 64)) = some ⟨.run, 2, 5, 1, [0x41, 0x42, 0x42, 0x42, 0x42].map some⟩ :=
  ⟨call_inv _ _ _ _ (by decide) (by decide), by decide⟩

/-- Sizes 0 are within `MAX_SIZE` whatever it is. -/
theorem meets_StepKeepsRegisterWidths : (call [] [] 0 0).Inv ∧ (call [] [] 0 0).SizeInv ∧
    (outcome (step (call [] [] 0 0))).isSome := by
  have pos : 0 < 2 ^ Config.aw := Nat.two_pow_pos _
  exact ⟨call_inv _ _ _ _ (by decide) (by decide),
    ⟨pos, pos, pos, pos, pos, pos, pos, pos, fun _ => ⟨Nat.zero_le _, Nat.zero_le _⟩⟩, by decide⟩

theorem meets_StepKeepsTheRecord : (call [0xD5] [] 0 64).RecordInv ∧ (record (step (call [0xD5] [] 0 64))).isSome :=
  ⟨⟨by decide, by decide, by decide⟩, by decide⟩

theorem meets_GuardsKeepEveryAccessLegal :
    (call [0x46, 0x42] [0x41] 1 64).Inv ∧
    (call [0x46, 0x42] [0x41] 1 64).turn = (.rest, call [0x46, 0x42] [0x41] 1 64) :=
  ⟨call_inv _ _ _ _ (by decide) (by decide), rfl⟩

theorem meets_EveryIterationAdvances :
    (call [0x46, 0x42] [0x41] 1 64).turn = (.rest, call [0x46, 0x42] [0x41] 1 64) ∧
    (call [0x46, 0x42] [0x41] 1 64).runState = .run ∧
    (outcome (step (call [0x46, 0x42] [0x41] 1 64))).map Shown.runState = some .run := ⟨rfl, rfl, by decide⟩

theorem meets_CallTerminates : (call [0x46, 0x42] [0x41] 1 64).Inv ∧ (call [0x46, 0x42] [0x41] 1 64).runState = .run ∧
    (call [0x46, 0x42] [0x41] 1 64).schedule = [] := ⟨call_inv _ _ _ _ (by decide) (by decide), rfl, rfl⟩

/-- V13: the same call with other bytes above the write cursor. -/
theorem meets_OutcomeIgnoresOldOutput :
    (call [0x08, 0x01] [0x41] 0 8).Inv ∧
    (State.Inv { call [0x08, 0x01] [0x41] 0 8 with dst := Memory.ofBytes [0x41, 0xFF, 0xFF] }) ∧
    (call [0x08, 0x01] [0x41] 0 8).schedule = [] ∧ (call [0x08, 0x01] [0x41] 0 8).runState = .run ∧
    (call [0x08, 0x01] [0x41] 0 8).SameCall { call [0x08, 0x01] [0x41] 0 8 with dst := Memory.ofBytes [0x41, 0xFF, 0xFF] } := by
  have h := call_inv [0x08, 0x01] [0x41] 0 8 (by decide) (by decide)
  refine ⟨h, ⟨h.1, Memory.wf_ofBytes _, fun hr => ?_⟩, rfl, rfl, rfl, ?_⟩
  · obtain ⟨h1, h2, h3, h4, -⟩ := h.2.2 hr
    exact ⟨h1, h2, h3, h4, by unfold State.DstReadable; decide⟩
  · decide

theorem meets_IterationWritesOnlyBetweenTheCursors :
    (call [0x46, 0x42] [0x41] 1 64).turn = (.rest, call [0x46, 0x42] [0x41] 1 64) ∧
    (call [0x46, 0x42] [0x41] 1 64).schedule = [] ∧ (outcome (step (call [0x46, 0x42] [0x41] 1 64))).isSome :=
  ⟨rfl, rfl, by decide⟩

theorem meets_StateMovesOnlyAsTabled : (outcome (step (call [0x06] [] 0 64))).map Shown.runState = some .done ∧
    (outcome (step (planned .start))).map Shown.runState = some .fault := by decide

theorem meets_SuccessReportsTheBytesWritten :
    (call [0x06] [0x41] 0 64).Inv ∧ (call [0x06] [0x41] 0 64).RecordInv ∧
    (call [0x06] [0x41] 0 64).turn = (.rest, call [0x06] [0x41] 0 64) ∧ (call [0x06] [0x41] 0 64).runState = .run ∧
    (outcome (step (call [0x06] [0x41] 0 64))).map Shown.runState = some .done :=
  ⟨call_inv _ _ _ _ (by decide) (by decide), ⟨by decide, by decide, by decide⟩, rfl, rfl, by decide⟩

theorem meets_NoResumption :
    readyToStart.runState = .done ∧ ({ readyToStart with schedule := [] } : State).schedule = [] ∧
    ∃ t, step readyToStart = .next t ∧ t.runState ≠ readyToStart.runState :=
  ⟨rfl, rfl, _, test_start_runs, by decide⟩

end Sys2Proof.Tests
end

section
/-! The rules the state's statements rest on: what one iteration of the engine can do (`Iteration`), what one turn of
the host or the engine can do (`Answers`), and how an invariant of every turn becomes one of every step. -/

namespace Sys2Proof.Machine

/-! ### What fetching and copying change -/

/-- How the part of an iteration that fetches and copies takes a call from `s` to `u` (R122 to R128): it changes
working registers and `DST` only, moves each cursor within its buffer, and writes every byte between the old and the new
`WC` and no other. -/
structure Progress (s u : State) : Prop where
  frame : u = { s with
    rc := u.rc, wc := u.wc, prevDist := u.prevDist, opcode := u.opcode, opOffset := u.opOffset, optype := u.optype,
    e1 := u.e1, e2 := u.e2, litLen := u.litLen, matchLen := u.matchLen, dst := u.dst }
  rcWithin : u.rc = s.rc ∨ u.rc ≤ s.inSize
  wcWithin : u.wc = s.wc ∨ u.wc ≤ s.cap
  wcMono : s.wc ≤ u.wc
  opOffsetWithin : u.opOffset = s.opOffset ∨ u.opOffset < s.inSize
  outside : ∀ off, off < s.wc ∨ u.wc ≤ off → u.dst.read off = s.dst.read off
  written : ∀ off, s.wc ≤ off → off < u.wc → (u.dst.read off).isSome
  wf : s.dst.wf → u.dst.wf

/-- The registers a `Progress` leaves alone, for rewriting. -/
theorem Progress.regs {s u : State} (p : Progress s u) :
    u.inSize = s.inSize ∧ u.cap = s.cap ∧ u.srcSize = s.srcSize ∧ u.dstCap = s.dstCap ∧ u.runState = s.runState ∧
    u.stopReason = s.stopReason ∧ u.errKind = s.errKind ∧ u.errOpcode = s.errOpcode ∧ u.errOffset = s.errOffset ∧
    u.src = s.src := by
  rw [p.frame]
  simp

/-- A change of working registers that moves neither `WC` nor `DST`. -/
theorem Progress.of_registers {s u : State}
    (frame : u = { s with
      rc := u.rc, prevDist := u.prevDist, opcode := u.opcode, opOffset := u.opOffset, optype := u.optype,
      e1 := u.e1, e2 := u.e2, litLen := u.litLen, matchLen := u.matchLen })
    (hrc : u.rc = s.rc ∨ u.rc ≤ s.inSize) (hop : u.opOffset = s.opOffset ∨ u.opOffset < s.inSize) :
    Progress s u := by
  have hwc : u.wc = s.wc := by rw [frame]
  have hdst : u.dst = s.dst := by rw [frame]
  refine ⟨?_, hrc, .inl hwc, hwc.ge, hop, fun off _ => by rw [hdst], fun off _ _ => by omega, fun h => hdst ▸ h⟩
  rw [hwc, hdst]
  exact frame

theorem Progress.refl (s : State) : Progress s s := .of_registers rfl (.inl rfl) (.inl rfl)

theorem Progress.trans {s u t : State} (p : Progress s u) (q : Progress u t) : Progress s t where
  frame := by
    have hp := p.frame
    have hq := q.frame
    cases s; cases u; cases t
    simp_all
  rcWithin := by have := p.rcWithin; have := q.rcWithin; have := p.regs.1; omega
  wcWithin := by have := p.wcWithin; have := q.wcWithin; have := p.regs.2.1; omega
  wcMono := p.wcMono.trans q.wcMono
  opOffsetWithin := by have := p.opOffsetWithin; have := q.opOffsetWithin; have := p.regs.1; omega
  outside off h := by
    have := p.wcMono
    have := q.wcMono
    rw [q.outside off (by omega), p.outside off (by omega)]
  written off h1 h2 := by
    by_cases h : off < u.wc
    · rw [q.outside off (.inl h)]
      exact p.written off h1 h
    · exact q.written off (by omega) h2
  wf h := q.wf (p.wf h)

theorem Copied.progress {n : Nat} {s u : State} (c : Copied n s u) : Progress s u := by
  obtain ⟨hrc, hwc, -, -, -, -, -, -, -, hoff⟩ := c.regs
  have hb := c.inBounds
  refine ⟨?_, by omega, by omega, by omega, .inl hoff, hwc ▸ c.outside, ?_, c.wf⟩
  · rw [c.frame]
  · intro off h1 h2
    obtain ⟨k, rfl⟩ := Nat.exists_eq_add_of_le h1
    rw [c.payload k (by omega)]
    exact c.present k (by omega)

theorem Replayed.wc_eq {n : Nat} {s t : State} (r : Replayed n s t) : t.wc = s.wc + n := by rw [r.frame]

theorem Replayed.prevDist_eq {n : Nat} {s t : State} (r : Replayed n s t) : t.prevDist = s.prevDist := by rw [r.frame]

theorem Replayed.progress {n : Nat} {s t : State} (r : Replayed n s t) : Progress s t := by
  have hwc := r.wc_eq
  have hb := r.inBounds
  refine ⟨?_, .inl ?_, by omega, by omega, .inl ?_, hwc ▸ r.outside, ?_, r.wf⟩
  · rw [r.frame]
  · rw [r.frame]
  · rw [r.frame]
  · intro off h1 h2
    obtain ⟨k, rfl⟩ := Nat.exists_eq_add_of_le h1
    exact r.present k (by omega)

theorem progress_extracted (s : State) (i : Instr) : Progress s (s.extracted i) :=
  .of_registers rfl (.inl rfl) (.inl rfl)

theorem progress_afterFetch {s : State} {b : Byte} (hlt : s.rc < s.inSize)
    (hfit : extraBytes (classify b) ≤ s.inSize - (s.rc + 1)) : Progress s (s.afterFetch b) :=
  .of_registers rfl (.inr (by show s.rc + 1 + _ ≤ _; omega)) (.inr hlt)

/-! ### One iteration -/

/-- Everything one iteration in `RUN` can do, as the three ways it ends: the call goes on, a successful stop that writes
nothing more (R127), or a trap (R206). -/
inductive Iteration (s : State) : State → Prop where
  | goesOn {u : State} (p : Progress s u) (dist : s.prevDist.toNat ≤ s.wc → u.prevDist.toNat ≤ u.wc) : Iteration s u
  | stops {u : State} (p : Progress s u) (r : StopReason) (reason : r ≠ .notStopped) (wc : u.wc = s.wc)
      (dst : u.dst = s.dst) : Iteration s (u.stop r)
  | traps {u : State} (p : Progress s u) (k : ErrKind) (kind : k ≠ .noError) : Iteration s (u.raiseToken k)

theorem Iteration.after_progress {s u t : State} (p : Progress s u) (hdist : u.prevDist = s.prevDist)
    (hwc : u.wc = s.wc) (hdst : u.dst = s.dst) (h : Iteration u t) : Iteration s t := by
  cases h with
  | goesOn q dist => exact .goesOn (p.trans q) fun h => dist (by rwa [hdist, hwc])
  | stops q r reason wc dst => exact .stops (p.trans q) r reason (wc.trans hwc) (dst.trans hdst)
  | traps q k kind => exact .traps (p.trans q) k kind

theorem shortMatch_ne_zero : ∀ m : BitVec 3, shortMatch m ≠ 0 := by decide

theorem mediumMatch_ne_zero : ∀ m : BitVec 5, mediumMatch m ≠ 0 := by decide

/-- A token that carries a distance of its own has a match. -/
theorem ownDistance_of_matchLength_zero {i : Instr} (h : matchLength i = 0) : ownDistance i = none := by
  cases i with
  | distanceLarge _ m _ => exact absurd h (shortMatch_ne_zero m)
  | distanceMedium _ m _ => exact absurd h (mediumMatch_ne_zero m)
  | distanceSmall _ m _ => exact absurd h (shortMatch_ne_zero m)
  | distancePrevious _ _ => rfl
  | literalLarge _ => rfl
  | literalSmall _ => rfl
  | matchLarge _ => rfl
  | matchSmall _ => rfl
  | endOfStream => rfl
  | noOp _ => rfl
  | invalid _ => rfl

/-- After a token that completed, the carried distance reaches no further back than offset 0: the match guard tested it,
or there was no match, and then no new distance either (R143). -/
theorem prevDist_le_wc_of_complete {i : Instr} {s u t : State} {n m : Nat} (c : Copied n (s.extracted i) u)
    (r : Replayed m u t) (hg : matchLength i = 0 ∨ u.matchFits) (h : s.prevDist.toNat ≤ s.wc) :
    t.prevDist.toNat ≤ t.wc := by
  have hu : u.prevDist.toNat ≤ u.wc := by
    rcases hg with h0 | hfits
    · obtain ⟨-, hwc, -, hpd, -⟩ := c.regs
      rw [hpd, hwc, State.extracted_prevDist, ownDistance_of_matchLength_zero h0]
      exact h.trans (Nat.le_add_right _ _)
    · exact hfits.1
  rw [r.prevDist_eq, r.wc_eq]
  exact hu.trans (Nat.le_add_right _ _)

theorem exec_iteration {i : Instr} {s t : State} (h : exec i s = .next t) : Iteration s t := by
  rcases exec_next h with ⟨-, rfl⟩ | ⟨-, rfl⟩ | ⟨-, rfl⟩ | ⟨-, hcopy⟩
  · exact .stops (.refl s) .eos (by decide) rfl rfl
  · exact .goesOn (.refl t) id
  · exact .traps (.refl s) .invalidOpcode (by decide)
  rcases hcopy with ⟨u, c, r, -, hg⟩ | ⟨rfl, -⟩ | ⟨u, c, -, rfl, -⟩
  · exact .goesOn ((progress_extracted s i).trans (c.progress.trans r.progress)) (prevDist_le_wc_of_complete c r hg)
  · exact .traps (progress_extracted s i) .outOfBounds (by decide)
  · exact .traps ((progress_extracted s i).trans c.progress) .outOfBounds (by decide)

theorem truncatedAt_iteration {s : State} {b : Byte} (hlt : s.rc < s.inSize) : Iteration s (s.truncatedAt b) :=
  .traps (u := { s with opOffset := s.rc, opcode := b, rc := s.rc + 1, optype := classify b,
                        e1 := 0, e2 := 0, litLen := 0, matchLen := 0 })
    (.of_registers rfl (.inr hlt) (.inr hlt)) .truncatedInput (by decide)

theorem tokenStep_iteration {s t : State} (h : tokenStep s = .next t) : Iteration s t := by
  obtain ⟨b, hlt, -, ⟨-, rfl⟩ | ⟨hfit, hexec⟩⟩ := tokenStep_next h
  · exact truncatedAt_iteration hlt
  · exact .after_progress (progress_afterFetch hlt hfit) rfl rfl rfl (exec_iteration hexec)

/-- The engine's turn: nothing outside `RUN` (R26), one iteration in it. -/
theorem engineStep_iteration {s t : State} (h : engineStep s = .next t) :
    (s.runState ≠ .run ∧ t = s) ∨ (s.runState = .run ∧ Iteration s t) := by
  rcases engineStep_next h with hidle | ⟨hrun, ⟨-, rfl⟩ | ⟨-, -, rfl⟩ | ⟨-, -, htoken⟩⟩
  · exact .inl hidle
  · exact .inr ⟨hrun, .stops (.refl s) .inputEnd (by decide) rfl rfl⟩
  · exact .inr ⟨hrun, .stops (.refl s) .outputFull (by decide) rfl rfl⟩
  · exact .inr ⟨hrun, tokenStep_iteration htoken⟩

theorem engineStep_of_not_run {s : State} (h : s.runState ≠ .run) : engineStep s = .next s := by
  unfold engineStep
  split
  · contradiction
  all_goals rfl

/-! ### One turn -/

theorem unlessRunning_of_run {s : State} (h : s.runState = .run) (r : Result) :
    s.unlessRunning r = .refused .hostMoveDuringRun := if_pos h

theorem unlessRunning_of_not_run {s : State} (h : s.runState ≠ .run) (r : Result) : s.unlessRunning r = r := if_neg h

theorem unlessRunning_next {s t : State} {r : Result} (h : s.unlessRunning r = .next t) :
    s.runState ≠ .run ∧ r = .next t := by
  by_cases hrun : s.runState = .run
  · rw [unlessRunning_of_run hrun] at h
    cases h
  · rw [unlessRunning_of_not_run hrun] at h
    exact ⟨hrun, h⟩

theorem ifFits_next {v : Nat} {s t : State} (h : ifFits v s = .next t) : v < 2 ^ Config.aw ∧ t = s := by
  unfold ifFits at h
  split at h <;> cases h
  exact ⟨‹_›, rfl⟩

theorem start_of_valid {s : State} (hv : s.descriptorValid) (hc : ∀ off, off < s.srcSize → (s.src.read off).isSome) :
    s.start = .next s.clearRecord.beginCall := by
  rw [State.start, if_pos hv, if_pos ((Memory.covers_iff _ _).mpr hc)]

theorem start_of_invalid {s : State} (hv : ¬ s.descriptorValid) :
    s.start = .next (s.clearRecord.raise .invalidArgument 0 0) := if_neg hv

/-- Everything `START` can answer, if it answers a next state (R27). -/
theorem start_next {s t : State} (h : s.start = .next t) :
    (s.descriptorValid ∧ (∀ off, off < s.srcSize → (s.src.read off).isSome) ∧ t = s.clearRecord.beginCall) ∨
    (¬ s.descriptorValid ∧ t = s.clearRecord.raise .invalidArgument 0 0) := by
  unfold State.start at h
  split at h <;> rename_i hv
  · split at h <;> rename_i hc <;> cases h
    exact .inl ⟨hv, (Memory.covers_iff _ _).mp hc, rfl⟩
  · cases h
    exact .inr ⟨hv, rfl⟩

/-- What a descriptor write or a supplied buffer can change (R25, R233). -/
structure HostWrote (s t : State) : Prop where
  frame : t = { s with srcPresent := t.srcPresent, srcSize := t.srcSize, dstPresent := t.dstPresent,
                       dstCap := t.dstCap, src := t.src, dst := t.dst }
  srcSize : t.srcSize = s.srcSize ∨ t.srcSize < 2 ^ Config.aw
  dstCap : t.dstCap = s.dstCap ∨ t.dstCap < 2 ^ Config.aw
  srcWf : s.src.wf → t.src.wf
  dstWf : s.dst.wf → t.dst.wf

/-- The result registers, which the host cannot write. -/
theorem HostWrote.resultRegs {s t : State} (w : HostWrote s t) :
    t.runState = s.runState ∧ t.stopReason = s.stopReason ∧ t.errKind = s.errKind ∧ t.errOpcode = s.errOpcode ∧
    t.errOffset = s.errOffset := by
  rw [w.frame]
  simp

/-- Everything one turn can do to `s`, by whose move it is (R26, R27, R120, R234). -/
inductive Answers (s : State) : HostMove → State → Prop where
  | unchanged {m : HostMove} : Answers s m s
  | iteration {t : State} (run : s.runState = .run) (it : Iteration s t) : Answers s .rest t
  | powerOn : Answers s .powerOnReset s.powerOn
  | begins (out : s.runState ≠ .run) (valid : s.descriptorValid)
      (present : ∀ off, off < s.srcSize → (s.src.read off).isSome) : Answers s .start s.clearRecord.beginCall
  | rejects (out : s.runState ≠ .run) : Answers s .start (s.clearRecord.raise .invalidArgument 0 0)
  | wrote {m : HostMove} {t : State} (out : s.runState ≠ .run) (w : HostWrote s t) : Answers s m t

theorem hostAct_answers {s t : State} {m : HostMove} (h : s.hostAct m = .next t) : Answers s m t := by
  cases m with
  | rest =>
    rcases engineStep_iteration h with ⟨-, rfl⟩ | ⟨hrun, it⟩
    · exact .unchanged
    · exact .iteration hrun it
  | powerOnReset => cases h; exact .powerOn
  | poll => cases h; exact .unchanged
  | collect => cases (unlessRunning_next h).2; exact .unchanged
  | supplySrc bs =>
    obtain ⟨hout, ⟨⟩⟩ := unlessRunning_next h
    exact .wrote hout ⟨rfl, .inl rfl, .inl rfl, fun _ => Memory.wf_ofBytes bs, id⟩
  | supplyDst bs =>
    obtain ⟨hout, ⟨⟩⟩ := unlessRunning_next h
    exact .wrote hout ⟨rfl, .inl rfl, .inl rfl, id, fun _ => Memory.wf_ofBytes bs⟩
  | writeSrcPresent v =>
    obtain ⟨hout, ⟨⟩⟩ := unlessRunning_next h
    exact .wrote hout ⟨rfl, .inl rfl, .inl rfl, id, id⟩
  | writeSrcSize v =>
    obtain ⟨hout, hfit⟩ := unlessRunning_next h
    obtain ⟨hv, rfl⟩ := ifFits_next hfit
    exact .wrote hout ⟨rfl, .inr hv, .inl rfl, id, id⟩
  | writeDstPresent v =>
    obtain ⟨hout, ⟨⟩⟩ := unlessRunning_next h
    exact .wrote hout ⟨rfl, .inl rfl, .inl rfl, id, id⟩
  | writeDstCap v =>
    obtain ⟨hout, hfit⟩ := unlessRunning_next h
    obtain ⟨hv, rfl⟩ := ifFits_next hfit
    exact .wrote hout ⟨rfl, .inl rfl, .inr hv, id, id⟩
  | start =>
    obtain ⟨hout, hstart⟩ := unlessRunning_next h
    rcases start_next hstart with ⟨hv, hc, rfl⟩ | ⟨-, rfl⟩
    · exact .begins hout hv hc
    · exact .rejects hout
  | startWithOverlap => cases (unlessRunning_next h).2

theorem step_answers {s t : State} (h : step s = .next t) : Answers s.turn.2 s.turn.1 t := hostAct_answers h

theorem turn_snd_eq (s : State) : s.turn.2 = { s with schedule := s.turn.2.schedule } := turn_frame rfl

/-- An invariant that does not look at the host's plan and survives every turn is kept by every step. -/
theorem step_keeps {P : State → Prop} (plan : ∀ s ms, P s → P { s with schedule := ms })
    (act : ∀ s m t, P s → Answers s m t → P t) {s t : State} (hs : P s) (h : step s = .next t) : P t := by
  refine act _ _ t ?_ (step_answers h)
  rw [turn_snd_eq]
  exact plan s _ hs

end Sys2Proof.Machine
end

section
/-! The three invariants of the state (spec/10_state.md R35, R25, R26 to R30): each holds after reset and every step
keeps it. -/

open Sys2Proof Sys2Proof.Machine

namespace Sys2Proof.Machine

/-! ### The call invariant (R35) -/

/-- What an iteration does to a call keeps the call's invariant, but for the carried distance. -/
theorem callInv_of_progress {s u : State} (p : Progress s u) (h : s.CallInv) (hdist : u.prevDist.toNat ≤ u.wc) :
    u.CallInv := by
  obtain ⟨hrc, hwc, -, hsrc, hdst⟩ := h
  obtain ⟨hin, hcap, -, -, -, -, -, -, -, hsrcEq⟩ := p.regs
  have hrc' := p.rcWithin
  have hwc' := p.wcWithin
  refine ⟨by omega, by omega, hdist, ?_, fun off hoff => ?_⟩
  · unfold State.SrcReadable
    rw [hin, hsrcEq]
    exact hsrc
  · by_cases hold : off < s.wc
    · rw [p.outside off (.inl hold)]
      exact hdst off hold
    · exact p.written off (Nat.le_of_not_lt hold) hoff

theorem Progress.src_wf {s u : State} (p : Progress s u) (h : s.src.wf) : u.src.wf := by
  obtain ⟨-, -, -, -, -, -, -, -, -, hsrc⟩ := p.regs
  rwa [hsrc]

theorem inv_of_not_run {s : State} (hsrc : s.src.wf) (hdst : s.dst.wf) (h : s.runState ≠ .run) : s.Inv :=
  ⟨hsrc, hdst, fun hrun => absurd hrun h⟩

theorem iteration_inv {s t : State} (h : s.Inv) (hrun : s.runState = .run) (it : Iteration s t) : t.Inv := by
  obtain ⟨hsrc, hdst, hcallOfRun⟩ := h
  have hcall := hcallOfRun hrun
  cases it with
  | goesOn p dist =>
    have ⟨_, _, hprev, _, _⟩ := hcall
    exact ⟨p.src_wf hsrc, p.wf hdst, fun _ => callInv_of_progress p hcall (dist hprev)⟩
  | stops p r => exact inv_of_not_run (p.src_wf hsrc) (p.wf hdst) (by simp)
  | traps p k => exact inv_of_not_run (p.src_wf hsrc) (p.wf hdst) (by simp)

theorem beginCall_inv {s : State} (hsrc : s.src.wf) (hdst : s.dst.wf)
    (present : ∀ off, off < s.srcSize → (s.src.read off).isSome) : s.clearRecord.beginCall.Inv :=
  ⟨hsrc, hdst, fun _ => ⟨Nat.zero_le _, Nat.zero_le _, Nat.le_refl _, present,
    fun _ hoff => absurd hoff (Nat.not_lt_zero _)⟩⟩

theorem answers_inv {s t : State} {m : HostMove} (h : s.Inv) (a : Answers s m t) : t.Inv := by
  have ⟨hsrc, hdst, _⟩ := h
  cases a with
  | unchanged => exact h
  | iteration run it => exact iteration_inv h run it
  | powerOn => exact inv_of_not_run hsrc hdst (by simp)
  | begins out valid present => exact beginCall_inv hsrc hdst present
  | rejects out => exact inv_of_not_run hsrc hdst (by simp)
  | wrote out w => exact inv_of_not_run (w.srcWf hsrc) (w.dstWf hdst) (by rwa [w.frame])

/-! ### The register widths (R21, R25) -/

theorem maxSize_lt_two_pow_aw : Config.maxSize < 2 ^ Config.aw := by
  have : 0 < 2 ^ Config.aw := Nat.two_pow_pos _
  unfold Config.maxSize
  omega

theorem progress_sizeInv {s u : State} (p : Progress s u) (h : s.SizeInv) : u.SizeInv := by
  obtain ⟨hrc, hwc, hin, hcap, hop, hsrcSize, hdstCap, herr, hmax⟩ := h
  obtain ⟨hin', hcap', hsrcSize', hdstCap', hrun', -, -, -, herr', -⟩ := p.regs
  have hrc' := p.rcWithin
  have hwc' := p.wcWithin
  have hop' := p.opOffsetWithin
  refine ⟨by omega, by omega, by omega, by omega, by omega, by omega, by omega, by omega, ?_⟩
  rw [hrun', hin', hcap']
  exact hmax

theorem stop_sizeInv {s : State} (r : StopReason) (h : s.SizeInv) : (s.stop r).SizeInv := by
  obtain ⟨hrc, hwc, hin, hcap, hop, hsrcSize, -, herr, -⟩ := h
  exact ⟨hrc, hwc, hin, hcap, hop, hsrcSize, hwc, herr, by simp⟩

theorem raise_sizeInv {s : State} {off : Nat} (k : ErrKind) (op : Byte) (h : s.SizeInv) (hoff : off < 2 ^ Config.aw) :
    (s.raise k op off).SizeInv := by
  obtain ⟨hrc, hwc, hin, hcap, hop, hsrcSize, hdstCap, -, -⟩ := h
  exact ⟨hrc, hwc, hin, hcap, hop, hsrcSize, hdstCap, hoff, by simp⟩

theorem raiseToken_sizeInv {s : State} (k : ErrKind) (h : s.SizeInv) : (s.raiseToken k).SizeInv := by
  have ⟨_, _, _, _, hop, _⟩ := h
  exact raise_sizeInv k s.opcode h hop

theorem clearRecord_sizeInv {s : State} (h : s.SizeInv) : s.clearRecord.SizeInv := by
  obtain ⟨hrc, hwc, hin, hcap, hop, hsrcSize, hdstCap, -, hmax⟩ := h
  exact ⟨hrc, hwc, hin, hcap, hop, hsrcSize, hdstCap, Nat.two_pow_pos _, hmax⟩

theorem beginCall_sizeInv {s : State} (h : s.SizeInv) (hsrc : s.srcSize ≤ Config.maxSize)
    (hdst : s.dstCap ≤ Config.maxSize) : s.beginCall.SizeInv := by
  obtain ⟨-, -, -, -, -, hsrcSize, hdstCap, herr, -⟩ := h
  have pos : 0 < 2 ^ Config.aw := Nat.two_pow_pos _
  exact ⟨pos, pos, hsrcSize, hdstCap, pos, hsrcSize, hdstCap, herr, fun _ => ⟨hsrc, hdst⟩⟩

theorem powerOn_sizeInv (s : State) : s.powerOn.SizeInv := by
  have pos : 0 < 2 ^ Config.aw := Nat.two_pow_pos _
  exact ⟨pos, pos, pos, pos, pos, pos, pos, pos, by simp⟩

theorem hostWrote_sizeInv {s t : State} (w : HostWrote s t) (out : s.runState ≠ .run) (h : s.SizeInv) : t.SizeInv := by
  obtain ⟨hrc, hwc, hin, hcap, hop, hsrcSize, hdstCap, herr, -⟩ := h
  have hsrcSize' : t.srcSize < 2 ^ Config.aw := w.srcSize.elim (·.trans_lt hsrcSize) id
  have hdstCap' : t.dstCap < 2 ^ Config.aw := w.dstCap.elim (·.trans_lt hdstCap) id
  rw [w.frame]
  exact ⟨hrc, hwc, hin, hcap, hop, hsrcSize', hdstCap', herr, fun hrun => absurd hrun out⟩

theorem iteration_sizeInv {s t : State} (h : s.SizeInv) (it : Iteration s t) : t.SizeInv := by
  cases it with
  | goesOn p => exact progress_sizeInv p h
  | stops p r => exact stop_sizeInv r (progress_sizeInv p h)
  | traps p k => exact raiseToken_sizeInv k (progress_sizeInv p h)

theorem answers_sizeInv {s t : State} {m : HostMove} (h : s.SizeInv) (a : Answers s m t) : t.SizeInv := by
  cases a with
  | unchanged => exact h
  | iteration _ it => exact iteration_sizeInv h it
  | powerOn => exact powerOn_sizeInv s
  | begins _ valid _ =>
    obtain ⟨-, -, hsrc, hdst⟩ := valid
    exact beginCall_sizeInv (clearRecord_sizeInv h) hsrc hdst
  | rejects => exact raise_sizeInv _ _ (clearRecord_sizeInv h) (Nat.two_pow_pos _)
  | wrote out w => exact hostWrote_sizeInv w out h

/-! ### The result registers (R26 to R30) -/

/-- While a call runs, the record of the last one is clear. -/
theorem record_clear_of_run {s : State} (h : s.RecordInv) (hrun : s.runState = .run) :
    s.errKind = .noError ∧ s.stopReason = .notStopped ∧ s.errOpcode = 0 ∧ s.errOffset = 0 := by
  obtain ⟨hfault, hdone, hrec⟩ := h
  have hkind : s.errKind = .noError := by simpa [hrun] using hfault
  have hreason : s.stopReason = .notStopped := by simpa [hrun] using hdone
  exact ⟨hkind, hreason, hrec hkind⟩

/-- The record invariant looks at the result registers only. -/
theorem recordInv_of_eq {s t : State} (hrun : t.runState = s.runState) (hreason : t.stopReason = s.stopReason)
    (hkind : t.errKind = s.errKind) (hop : t.errOpcode = s.errOpcode) (hoff : t.errOffset = s.errOffset)
    (h : s.RecordInv) : t.RecordInv := by
  unfold State.RecordInv
  rw [hrun, hreason, hkind, hop, hoff]
  exact h

theorem progress_recordInv {s u : State} (p : Progress s u) (h : s.RecordInv) : u.RecordInv := by
  obtain ⟨-, -, -, -, hrun, hreason, hkind, hop, hoff, -⟩ := p.regs
  exact recordInv_of_eq hrun hreason hkind hop hoff h

theorem stop_recordInv {s : State} {r : StopReason} (hr : r ≠ .notStopped) (hkind : s.errKind = .noError)
    (hop : s.errOpcode = 0) (hoff : s.errOffset = 0) : (s.stop r).RecordInv := by
  refine ⟨?_, ?_, fun _ => ⟨hop, hoff⟩⟩
  · simp [hkind]
  · simp [hr]

theorem raise_recordInv {s : State} {k : ErrKind} (hk : k ≠ .noError) (op : Byte) (off : Nat)
    (hreason : s.stopReason = .notStopped) : (s.raise k op off).RecordInv := by
  refine ⟨?_, ?_, fun h => absurd h hk⟩
  · simp [hk]
  · simp [hreason]

theorem iteration_recordInv {s t : State} (h : s.RecordInv) (hrun : s.runState = .run) (it : Iteration s t) :
    t.RecordInv := by
  cases it with
  | goesOn p => exact progress_recordInv p h
  | stops p r reason =>
    obtain ⟨-, -, -, -, hrun', -⟩ := p.regs
    obtain ⟨hkind, -, hop, hoff⟩ := record_clear_of_run (progress_recordInv p h) (hrun'.trans hrun)
    exact stop_recordInv reason hkind hop hoff
  | traps p k kind =>
    obtain ⟨-, -, -, -, hrun', -⟩ := p.regs
    obtain ⟨-, hreason, -, -⟩ := record_clear_of_run (progress_recordInv p h) (hrun'.trans hrun)
    exact raise_recordInv kind _ _ hreason

theorem answers_recordInv {s t : State} {m : HostMove} (h : s.RecordInv) (a : Answers s m t) : t.RecordInv := by
  cases a with
  | unchanged => exact h
  | iteration run it => exact iteration_recordInv h run it
  | powerOn => exact ⟨by simp, by simp, fun _ => ⟨rfl, rfl⟩⟩
  | begins => exact ⟨by simp, by simp, fun _ => ⟨rfl, rfl⟩⟩
  | rejects => exact raise_recordInv (by decide) 0 0 rfl
  | wrote _ w =>
    obtain ⟨hrun, hreason, hkind, hop, hoff⟩ := w.resultRegs
    exact recordInv_of_eq hrun hreason hkind hop hoff h

end Sys2Proof.Machine

/-- Settles O30: the invariant survives every turn (`answers_inv`), the engine's by what an iteration moves and writes. -/
theorem stepKeepsTheInvariant : Obligations.StepKeepsTheInvariant := by
  intro s t
  exact step_keeps (fun _ _ h => h) fun _ _ _ => answers_inv

/-- Settles O31: a register an iteration moves stays within a latched size, and every latched or written size fits. The
call invariant is not needed for it. -/
theorem stepKeepsRegisterWidths : Obligations.StepKeepsRegisterWidths := by
  intro s t _
  exact step_keeps (fun _ _ h => h) fun _ _ _ => answers_sizeInv

/-- Settles O32: a running call's record is clear, so the one register its end writes is the one that end calls for. -/
theorem stepKeepsTheRecord : Obligations.StepKeepsTheRecord := by
  intro s t
  exact step_keeps (fun _ _ h => h) fun _ _ _ => answers_recordInv

/-- Settles O29: after reset no call runs, both spaces list nothing and every register holds 0. -/
theorem resetMeetsTheInvariants : Obligations.ResetMeetsTheInvariants := by
  refine ⟨inv_of_not_run .nil .nil (by decide), powerOn_sizeInv State.reset, ?_, ?_, ?_⟩
  · decide
  · decide
  · decide
end

section
/-! What a single turn answers (spec/10_state.md R25 to R28): `STATE`'s moves, a successful stop's result, the host's
commands, writes and reads, and the frame of a copying token. -/

open Sys2Proof Sys2Proof.Machine

namespace Sys2Proof.Machine

@[simp] theorem turn_snd_runState (s : State) : s.turn.2.runState = s.runState := by rw [turn_snd_eq]

theorem iteration_runState {s t : State} (it : Iteration s t) :
    t.runState = s.runState ∨ t.runState = .done ∨ t.runState = .fault := by
  cases it with
  | goesOn p =>
    obtain ⟨-, -, -, -, hrun, -⟩ := p.regs
    exact .inl hrun
  | stops => exact .inr (.inl rfl)
  | traps => exact .inr (.inr rfl)

theorem step_of_schedule {s : State} {m : HostMove} {ms : List HostMove} (h : s.schedule = m :: ms) :
    step s = ({ s with schedule := ms } : State).hostAct m := step_of_turn (turn_cons h)

/-- A move the host has only outside `RUN`, taken there. -/
theorem step_of_schedule_outside {s : State} {m : HostMove} {ms : List HostMove} {r : Result}
    (h : s.schedule = m :: ms) (hout : s.runState ≠ .run)
    (hm : ({ s with schedule := ms } : State).hostAct m = ({ s with schedule := ms } : State).unlessRunning r) :
    step s = r := by
  rw [step_of_schedule h, hm]
  exact unlessRunning_of_not_run hout r

theorem ifFits_of_lt {v : Nat} (h : v < 2 ^ Config.aw) (s : State) : ifFits v s = .next s := if_pos h

theorem ifFits_of_le {v : Nat} (h : 2 ^ Config.aw ≤ v) (s : State) : ifFits v s = .refused .valueWiderThanRegister :=
  if_neg (Nat.not_lt.mpr h)

theorem not_descriptorValid {s : State}
    (h : s.srcPresent = false ∨ s.dstPresent = false ∨ Config.maxSize < s.srcSize ∨ Config.maxSize < s.dstCap) :
    ¬ s.descriptorValid := by
  rintro ⟨hsrc, hdst, hsize, hcap⟩
  rcases h with h | h | h | h
  · simp [hsrc] at h
  · simp [hdst] at h
  · exact absurd hsize (Nat.not_le.mpr h)
  · exact absurd hcap (Nat.not_le.mpr h)

theorem hostResult_of_done {s : State} (h : s.runState = .done) :
    s.hostResult = some (s.dstCap, (List.range s.dstCap).map s.dst.read) := if_pos h

/-- A completed token's registers, from what its two copies did. -/
theorem complete_frame {i : Instr} {s u t : State} {n m : Nat} (c : Copied n (s.extracted i) u) (r : Replayed m u t) :
    t = { s with
      litLen := literalLength i, matchLen := matchLength i, prevDist := (ownDistance i).getD s.prevDist,
      rc := s.rc + n, wc := s.wc + n + m, dst := t.dst } := by
  rw [r.frame, c.frame]
  rfl

/-- A token's registers when the match guard trapped behind its literal. -/
theorem match_trap_frame {i : Instr} {s u : State} {n : Nat} (c : Copied n (s.extracted i) u) :
    u.raiseToken .outOfBounds = { s with
      litLen := literalLength i, matchLen := matchLength i, prevDist := (ownDistance i).getD s.prevDist,
      rc := s.rc + n, wc := s.wc + n, dst := u.dst,
      errKind := .outOfBounds, errOpcode := s.opcode, errOffset := s.opOffset, runState := .fault } := by
  rw [c.frame]
  rfl

end Sys2Proof.Machine

/-- Settles O27, along the three ways a copying token ends: complete, trapped before its literal, trapped behind it. -/
theorem copyingTokensFrame : Obligations.CopyingTokensFrame := by
  intro i s t hEos hNone hInvalid h
  rcases exec_next h with ⟨hi, -⟩ | ⟨hi, -⟩ | ⟨hi, -⟩ | ⟨-, ⟨u, c, r, -, -⟩ | ⟨rfl, -, -⟩ | ⟨u, c, -, rfl, -, -⟩⟩
  · exact absurd hi hEos
  · exact absurd hi hNone
  · exact absurd hi hInvalid
  · exact ⟨.inl (complete_frame c r), (c.progress.trans r.progress).outside⟩
  · exact ⟨.inr ⟨rfl, .inl ⟨rfl, rfl⟩⟩, fun _ _ => rfl⟩
  · obtain ⟨hrc, hwc, -⟩ := c.regs
    refine ⟨.inr ⟨?_, .inr ⟨hrc, hwc⟩⟩, c.progress.outside⟩
    rw [State.raiseToken_rc, State.raiseToken_wc, hrc, hwc]
    exact match_trap_frame c

/-- Settles O38, by the cases of `Answers`. -/
theorem stateMovesOnlyAsTabled : Obligations.StateMovesOnlyAsTabled := by
  intro s t h
  have a := step_answers h
  have hs := turn_snd_runState s
  generalize s.turn.2 = s0 at a hs
  generalize s.turn.1 = m at a
  rw [← hs]
  cases a with
  | unchanged => exact .inl rfl
  | iteration run it =>
    rcases iteration_runState it with hsame | hend
    · exact .inl hsame
    · exact .inr (.inr (.inl ⟨run, rfl, hend⟩))
  | powerOn => exact .inr (.inr (.inr ⟨rfl, rfl⟩))
  | begins out => exact .inr (.inl ⟨out, rfl, .inl rfl⟩)
  | rejects out => exact .inr (.inl ⟨out, rfl, .inr rfl⟩)
  | wrote _ w =>
    obtain ⟨hrun, -⟩ := w.resultRegs
    exact .inl hrun

/-- Settles O39: of the ways an iteration ends only a stop is in `DONE`, and it moves no `WC` and writes no `DST`, so the
result is what the sound running state held. -/
theorem successReportsTheBytesWritten : Obligations.SuccessReportsTheBytesWritten := by
  intro s s0 t hinv hrec hturn hrun hstep hdone
  obtain ⟨ms, rfl⟩ : ∃ ms, s0 = { s with schedule := ms } := ⟨_, turn_frame hturn⟩
  rw [step_of_turn hturn] at hstep
  obtain ⟨hout, -⟩ | ⟨-, it⟩ := engineStep_iteration hstep
  · exact absurd hrun hout
  obtain ⟨-, -, hcall⟩ := hinv
  obtain ⟨-, hwcCap, -, -, hread⟩ := hcall hrun
  obtain ⟨hkind, -, hop, hoff⟩ := record_clear_of_run hrec hrun
  cases it with
  | goesOn p =>
    obtain ⟨-, -, -, -, hrun', -⟩ := p.regs
    rw [hrun'] at hdone
    exact absurd (hrun.symm.trans hdone) (by decide)
  | traps => cases hdone
  | stops p r reason hwc hdst =>
    obtain ⟨-, -, -, -, -, -, hkind', hop', hoff', -⟩ := p.regs
    refine ⟨rfl, hwc.trans_le hwcCap, reason, hkind'.trans hkind, hop'.trans hop, hoff'.trans hoff, ?_, ?_⟩
    · rw [hostResult_of_done rfl, State.stop_dst, hdst]
      rfl
    · rw [State.stop_wc, State.stop_dst, hwc, hdst]
      exact hread

/-- Settles O7: the move is one update, with no condition on the state. -/
theorem powerOnResetIsAlwaysTaken : Obligations.PowerOnResetIsAlwaysTaken :=
  fun _ _ h => ⟨_, step_of_schedule h, rfl, rfl, rfl, rfl⟩

/-- Settles O8, by the three cases of `START` (R27). -/
theorem startCommand : Obligations.StartCommand := by
  intro s ms h
  refine ⟨fun hout hvalid hpresent => ?_, fun hout hinvalid => ?_, fun hrun => ?_⟩
  · exact (step_of_schedule_outside h hout rfl).trans (start_of_valid hvalid hpresent)
  · exact (step_of_schedule_outside h hout rfl).trans (start_of_invalid (not_descriptorValid hinvalid))
  · rw [step_of_schedule h]
    exact unlessRunning_of_run hrun _

/-- Settles O11: each move's own update, taken outside `RUN`. -/
theorem hostWritesDescriptorAndBuffers : Obligations.HostWritesDescriptorAndBuffers := by
  intro s ms hout
  refine ⟨fun v h => step_of_schedule_outside h hout rfl, fun v h => step_of_schedule_outside h hout rfl,
    fun v h => ⟨fun hv => ?_, fun hv => ?_⟩, fun v h => ⟨fun hv => ?_, fun hv => ?_⟩, fun bs h => ?_, fun bs h => ?_⟩
  · rw [step_of_schedule_outside h hout rfl, ifFits_of_lt hv]
  · rw [step_of_schedule_outside h hout rfl, ifFits_of_le hv]
  · rw [step_of_schedule_outside h hout rfl, ifFits_of_lt hv]
  · rw [step_of_schedule_outside h hout rfl, ifFits_of_le hv]
  · exact ⟨_, step_of_schedule_outside h hout rfl, rfl, Memory.wf_ofBytes bs, Memory.read_ofBytes bs⟩
  · exact ⟨_, step_of_schedule_outside h hout rfl, rfl, Memory.wf_ofBytes bs, Memory.read_ofBytes bs⟩

/-- Settles O12: the codes value by value, and the two conditional reads by their condition on `STATE`. -/
theorem hostReadsCodesAndResult : Obligations.HostReadsCodesAndResult := by
  intro s
  refine ⟨?_, ?_, ?_, rfl, rfl, fun h => if_neg h, fun h => if_pos h, hostResult_of_done,
    fun h => if_neg h⟩
  · rw [State.hostStatus]
    cases s.runState <;> rfl
  · rw [State.hostStatus]
    cases s.stopReason <;> rfl
  · rw [State.hostStatus]
    cases s.errKind <;> rfl

/-- Settles O17: the rested turn is the engine's, which has no step outside `RUN`. -/
theorem noEngineStepOutsideRun : Obligations.NoEngineStepOutsideRun := by
  intro s s0 hturn hout
  rw [step_of_turn hturn]
  refine engineStep_of_not_run ?_
  rwa [turn_frame hturn]
end

section
/-! Memory (spec/20_memory.md): where the engine writes `DST` (R56, R57, R66), and that what `DST` held before a call
never reaches its outcome (R55, R58). -/

open Sys2Proof Sys2Proof.Machine

namespace Sys2Proof.Machine

/-! ### The machine with the host at rest -/

theorem step_of_rest {s : State} (h : s.schedule = []) : step s = engineStep s := step_of_turn (turn_nil h)

theorem engineStep_of_run {s : State} (h : s.runState = .run) : engineStep s = runStep s := by
  unfold engineStep
  rw [h]

/-- The first step of a run that answers a next state. -/
theorem core_run_succ_next {k : Nat} {s t : State} (h : Host.Core.run Sys2Proof.core (k + 1) s = .next t) :
    ∃ u, step s = .next u ∧ Host.Core.run Sys2Proof.core k u = .next t := by
  have all : ∀ (C : Host.Core) {a c : C.State}, C.run (k + 1) a = .next c →
      ∃ b, C.step a = .next b ∧ C.run k b = .next c := by
    intro C a c e
    rw [Host.Core.run] at e
    split at e
    · exact ⟨_, ‹_›, e⟩
    · cases e
    · cases e
  exact all Sys2Proof.core h

theorem Progress.schedule_eq {s u : State} (p : Progress s u) : u.schedule = s.schedule := by rw [p.frame]

theorem iteration_schedule {s t : State} (it : Iteration s t) : t.schedule = s.schedule := by
  cases it with
  | goesOn p => exact p.schedule_eq
  | stops p => exact p.schedule_eq
  | traps p => exact p.schedule_eq

/-- The host's plan is not the engine's to change. -/
theorem engineStep_schedule {s t : State} (h : engineStep s = .next t) : t.schedule = s.schedule := by
  rcases engineStep_iteration h with ⟨-, rfl⟩ | ⟨-, it⟩
  · rfl
  · exact iteration_schedule it

/-! ### Where the engine writes -/

/-- From `s` to `t`, `DST` changed at most from the old `WC` up to the new one, and `SRC` nowhere (R56, R57). -/
def WritesBetweenCursors (s t : State) : Prop :=
  s.wc ≤ t.wc ∧ t.src = s.src ∧ ∀ off, off < s.wc ∨ t.wc ≤ off → t.dst.read off = s.dst.read off

theorem WritesBetweenCursors.refl (s : State) : WritesBetweenCursors s s := ⟨Nat.le_refl _, rfl, fun _ _ => rfl⟩

theorem WritesBetweenCursors.trans {s u t : State} (a : WritesBetweenCursors s u) (b : WritesBetweenCursors u t) :
    WritesBetweenCursors s t := by
  obtain ⟨hwc, hsrc, hdst⟩ := a
  obtain ⟨hwc', hsrc', hdst'⟩ := b
  refine ⟨hwc.trans hwc', hsrc'.trans hsrc, fun off hoff => ?_⟩
  rw [hdst' off (by omega), hdst off (by omega)]

theorem Progress.writesBetweenCursors {s u : State} (p : Progress s u) : WritesBetweenCursors s u := by
  obtain ⟨-, -, -, -, -, -, -, -, -, hsrc⟩ := p.regs
  exact ⟨p.wcMono, hsrc, p.outside⟩

/-- Neither end of a call moves `WC` or writes a byte beyond what the iteration copied. -/
theorem iteration_writesBetweenCursors {s t : State} (it : Iteration s t) : WritesBetweenCursors s t := by
  cases it with
  | goesOn p => exact p.writesBetweenCursors
  | stops p => exact p.writesBetweenCursors
  | traps p => exact p.writesBetweenCursors

theorem engineStep_writesBetweenCursors {s t : State} (h : engineStep s = .next t) : WritesBetweenCursors s t := by
  rcases engineStep_iteration h with ⟨-, rfl⟩ | ⟨-, it⟩
  · exact .refl _
  · exact iteration_writesBetweenCursors it

theorem run_writesBetweenCursors {k : Nat} {s t : State} (hrest : s.schedule = [])
    (h : Host.Core.run Sys2Proof.core k s = .next t) : WritesBetweenCursors s t := by
  induction k generalizing s with
  | zero =>
    cases h
    exact .refl _
  | succ k ih =>
    obtain ⟨u, hstep, hrun⟩ := core_run_succ_next h
    rw [step_of_rest hrest] at hstep
    exact (engineStep_writesBetweenCursors hstep).trans (ih ((engineStep_schedule hstep).trans hrest) hrun)

/-! ### Two calls that differ above `WC` only -/

/-- An update that commutes with replacing `DST` and leaves `WC` alone treats both calls alike. -/
theorem State.SameCall.update {s t : State} (h : s.SameCall t) (f : State → State)
    (comm : ∀ m, f { s with dst := m } = { f s with dst := m }) (wc : (f s).wc = s.wc) :
    (f s).SameCall (f t) := by
  obtain ⟨ht, hread⟩ := h
  have hft : f t = { f s with dst := t.dst } := by rw [ht]; exact comm _
  have hfs : (f s).dst = s.dst := (congrArg State.dst (comm s.dst) :)
  refine ⟨by rw [hft], fun off hoff => ?_⟩
  rw [hft, hfs]
  exact hread off (wc ▸ hoff)

theorem State.SameCall.dstReadable {s t : State} (h : s.SameCall t) (hs : s.DstReadable) : t.DstReadable := by
  obtain ⟨ht, hread⟩ := h
  intro off hoff
  have hlt : off < s.wc := by rwa [ht] at hoff
  rw [hread off hlt]
  exact hs off hlt

/-- The literal copy unit writes the same payload in both calls, for it reads `SRC` alone (R150). -/
theorem State.SameCall.copied {n : Nat} {s t u v : State} (h : s.SameCall t) (cs : Copied n s u) (ct : Copied n t v) :
    u.SameCall v := by
  obtain ⟨m, rfl⟩ : ∃ m, t = { s with dst := m } := ⟨_, h.1⟩
  refine ⟨by rw [ct.frame, cs.frame], fun off hoff => ?_⟩
  obtain ⟨-, hwc, -⟩ := cs.regs
  by_cases hold : off < s.wc
  · rw [ct.outside off (.inl hold), cs.outside off (.inl hold)]
    exact h.2 off hold
  · obtain ⟨k, rfl⟩ := Nat.exists_eq_add_of_le (Nat.le_of_not_lt hold)
    rw [cs.payload k (by omega), ct.payload k (by omega)]

/-- The replay engine writes the same bytes in both calls: with a distance that is not 0 (R144, the spec's D9) and
within the output (R143), every byte it writes repeats one below `WC` (R157). -/
theorem State.SameCall.replayed {n : Nat} {s t u v : State} (h : s.SameCall t) (rs : Replayed n s u)
    (rt : Replayed n t v) (hg : n = 0 ∨ s.prevDist.toNat ≠ 0 ∧ s.prevDist.toNat ≤ s.wc) : u.SameCall v := by
  obtain ⟨m, rfl⟩ : ∃ m, t = { s with dst := m } := ⟨_, h.1⟩
  refine ⟨by rw [rt.frame, rs.frame], fun off hoff => ?_⟩
  have hwc := rs.wc_eq
  by_cases hold : off < s.wc
  · rw [rt.outside off (.inl hold), rs.outside off (.inl hold)]
    exact h.2 off hold
  · obtain ⟨k, rfl⟩ := Nat.exists_eq_add_of_le (Nat.le_of_not_lt hold)
    obtain ⟨hD0, hD⟩ := hg.resolve_left (by omega)
    have hmod := Nat.mod_lt k (Nat.pos_of_ne_zero hD0)
    rw [rs.cyclic hD0 hD k (by omega), rt.cyclic hD0 hD k (by omega)]
    exact h.2 (s.wc - s.prevDist.toNat + k % s.prevDist.toNat) (by omega)

/-! ### Both calls run in step -/

/-- Both answers are next states, of calls that differ above `WC` only. -/
def InStep (r r' : Result) : Prop := ∃ s t, r = .next s ∧ r' = .next t ∧ s.SameCall t

theorem State.SameCall.inStep {s t : State} (h : s.SameCall t) : InStep (.next s) (.next t) := ⟨s, t, rfl, rfl, h⟩

theorem matchPhase_inStep {s t : State} (h : s.SameCall t) (hdst : s.DstReadable) :
    InStep (settle (matchPhase s)) (settle (matchPhase t)) := by
  have hdst' := h.dstReadable hdst
  obtain ⟨m, rfl⟩ : ∃ m, t = { s with dst := m } := ⟨_, h.1⟩
  by_cases hg : s.matchLen = 0 ∨ s.matchFits
  · obtain ⟨u, hu, rs⟩ := matchPhase_ok hg fun _ off _ => hdst off
    obtain ⟨v, hv, rt⟩ := matchPhase_ok (s := { s with dst := m }) hg fun _ off _ => hdst' off
    rw [hu, hv]
    refine (h.replayed rs rt ?_).inStep
    exact hg.imp (half_eq_zero_iff _).mp fun hfits => ⟨hfits.2.1, hfits.1⟩
  · obtain ⟨h0, hn⟩ := not_or.mp hg
    rw [matchPhase_trap h0 hn, matchPhase_trap (s := { s with dst := m }) h0 hn]
    exact (h.update (·.raiseToken .outOfBounds) (fun _ => rfl) rfl).inStep

theorem State.SrcReadable.payload {s : State} (hsrc : s.SrcReadable) (hg : s.litLen = 0 ∨ s.literalFits) (k : Nat)
    (hk : k < s.litLen.toNat) : (s.src.read (s.rc + k)).isSome := by
  rcases hg with h0 | ⟨hin, -⟩
  · exact absurd ((half_eq_zero_iff _).mp h0) (by omega)
  · exact hsrc _ (by omega)

theorem Progress.dstReadable {s u : State} (p : Progress s u) (h : s.DstReadable) : u.DstReadable := by
  intro off hoff
  by_cases hold : off < s.wc
  · rw [p.outside off (.inl hold)]
    exact h off hold
  · exact p.written off (Nat.le_of_not_lt hold) hoff

/-- The guards read registers only, so both calls copy or trap alike, before and behind the literal. -/
theorem runCopies_inStep {s t : State} (h : s.SameCall t) (hsrc : s.SrcReadable) (hdst : s.DstReadable) :
    InStep (runCopies s) (runCopies t) := by
  obtain ⟨m, rfl⟩ : ∃ m, t = { s with dst := m } := ⟨_, h.1⟩
  unfold runCopies
  by_cases hg : s.litLen = 0 ∨ s.literalFits
  · obtain ⟨u, hu, cs⟩ := literalPhase_ok hg (hsrc.payload hg)
    obtain ⟨v, hv, ct⟩ := literalPhase_ok (s := { s with dst := m }) hg (hsrc.payload hg)
    rw [hu, hv]
    exact matchPhase_inStep (h.copied cs ct) (cs.progress.dstReadable hdst)
  · obtain ⟨h0, hn⟩ := not_or.mp hg
    rw [literalPhase_trap h0 hn, literalPhase_trap (s := { s with dst := m }) h0 hn]
    exact (h.update (·.raiseToken .outOfBounds) (fun _ => rfl) rfl).inStep

theorem exec_inStep (i : Instr) {s t : State} (h : s.SameCall t) (hsrc : s.SrcReadable) (hdst : s.DstReadable) :
    InStep (exec i s) (exec i t) := by
  rw [exec_eq, exec_eq]
  split
  · exact (h.update (·.stop .eos) (fun _ => rfl) rfl).inStep
  · exact h.inStep
  · exact (h.update (·.raiseToken .invalidOpcode) (fun _ => rfl) rfl).inStep
  · exact runCopies_inStep (h.update (·.extracted i) (fun _ => rfl) rfl) hsrc hdst

/-- The fetch reads `SRC` alone, so both calls run the same token or both lack the same extra bytes (R122 to R124). -/
theorem tokenStep_inStep {s t : State} (h : s.SameCall t) (hlt : s.rc < s.inSize) (hsrc : s.SrcReadable)
    (hdst : s.DstReadable) : InStep (tokenStep s) (tokenStep t) := by
  obtain ⟨m, rfl⟩ : ∃ m, t = { s with dst := m } := ⟨_, h.1⟩
  obtain ⟨b, hb⟩ := Option.isSome_iff_exists.mp (hsrc s.rc hlt)
  by_cases hfit : extraBytes (classify b) ≤ s.inSize - (s.rc + 1)
  · have hextra : ∀ k, k < extraBytes (classify b) → (s.src.read (s.rc + 1 + k)).isSome :=
      fun k hk => hsrc _ (by omega)
    rw [tokenStep_fits hlt hb hfit hextra, tokenStep_fits (s := { s with dst := m }) hlt hb hfit hextra]
    exact exec_inStep _ (h.update (·.afterFetch b) (fun _ => rfl) rfl) hsrc hdst
  · have hshort := Nat.lt_of_not_le hfit
    rw [tokenStep_truncated hlt hb hshort, tokenStep_truncated (s := { s with dst := m }) hlt hb hshort]
    exact (h.update (·.truncatedAt b) (fun _ => rfl) rfl).inStep

/-- One iteration of two calls that differ above `WC` only, the first of them sound (R120, R121). -/
theorem runStep_inStep {s t : State} (h : s.SameCall t) (hcall : s.CallInv) : InStep (runStep s) (runStep t) := by
  obtain ⟨m, rfl⟩ : ∃ m, t = { s with dst := m } := ⟨_, h.1⟩
  obtain ⟨hrc, -, -, hsrc, hdst⟩ := hcall
  unfold runStep
  by_cases hend : s.rc = s.inSize
  · rw [if_pos hend, if_pos hend]
    exact (h.update (·.stop .inputEnd) (fun _ => rfl) rfl).inStep
  rw [if_neg hend, if_neg hend]
  by_cases hfull : s.wc = s.cap
  · rw [if_pos hfull, if_pos hfull]
    exact (h.update (·.stop .outputFull) (fun _ => rfl) rfl).inStep
  rw [if_neg hfull, if_neg hfull]
  exact tokenStep_inStep h (Nat.lt_of_le_of_ne hrc hend) hsrc hdst

theorem engineStep_inStep {s t : State} (h : s.SameCall t) (hinv : s.Inv) : InStep (engineStep s) (engineStep t) := by
  obtain ⟨m, rfl⟩ : ∃ m, t = { s with dst := m } := ⟨_, h.1⟩
  by_cases hrun : s.runState = .run
  · obtain ⟨-, -, hcall⟩ := hinv
    rw [engineStep_of_run hrun, engineStep_of_run (s := { s with dst := m }) hrun]
    exact runStep_inStep h (hcall hrun)
  · rw [engineStep_of_not_run hrun, engineStep_of_not_run (s := { s with dst := m }) hrun]
    exact h.inStep

theorem run_inStep (k : Nat) {s t : State} (h : s.SameCall t) (hinv : s.Inv) (hrest : s.schedule = []) :
    InStep (Host.Core.run Sys2Proof.core k s) (Host.Core.run Sys2Proof.core k t) := by
  induction k generalizing s t with
  | zero => exact h.inStep
  | succ k ih =>
    have hrest' : t.schedule = [] := by rwa [h.1]
    obtain ⟨s', t', hs, ht, h'⟩ := engineStep_inStep h hinv
    have hsched := (engineStep_schedule hs).trans hrest
    rw [← step_of_rest hrest] at hs
    rw [← step_of_rest hrest'] at ht
    rw [core_run_succ hs, core_run_succ ht]
    exact ih h' (stepKeepsTheInvariant s s' hinv hs) hsched

/-! ### A refused `START` -/

theorem start_of_missing_byte {s : State} {off : Nat} (hv : s.descriptorValid) (hoff : off < s.srcSize)
    (hnone : s.src.read off = none) : s.start = .refused .sourceShorterThanDeclared := by
  have hcovers : ¬ s.src.covers s.srcSize = true := by
    rw [Memory.covers_iff]
    intro hall
    simpa [hnone] using hall off hoff
  rw [State.start, if_pos hv, if_neg hcovers]

end Sys2Proof.Machine

/-- Settles O36: the call invariant lets every step answer, and each step keeps `SameCall`, since the guards and the
fetch look at no byte of `DST` and a replay at none from `WC` up. It is enough that one of the two states is sound, in
any `STATE`. -/
theorem outcomeIgnoresOldOutput : Obligations.OutcomeIgnoresOldOutput := by
  intro k s t hinv _ hrest _ hsame
  exact run_inStep k hsame hinv hrest

/-- Settles O37, by what an iteration writes and the composition of such writes along a run. -/
theorem iterationWritesOnlyBetweenTheCursors : Obligations.IterationWritesOnlyBetweenTheCursors := by
  refine ⟨fun s s0 t hturn hstep => ?_, fun k s t hrest hrun => run_writesBetweenCursors hrest hrun⟩
  obtain ⟨ms, rfl⟩ : ∃ ms, s0 = { s with schedule := ms } := ⟨_, turn_frame hturn⟩
  rw [step_of_turn hturn] at hstep
  have hwrites := engineStep_writesBetweenCursors hstep
  exact hwrites

/-- Settles O9, by the two moves' own refusals, taken outside `RUN`. -/
theorem meaninglessStartsAreRefused : Obligations.MeaninglessStartsAreRefused := by
  intro s ms hout
  refine ⟨fun h => step_of_schedule_outside h hout rfl, fun h hvalid ⟨off, hoff, hnone⟩ => ?_⟩
  exact (step_of_schedule_outside h hout rfl).trans (start_of_missing_byte hvalid hoff hnone)
end

section
/-! The encoding (spec/30_encoding.md): the decoder and the encoder are inverse to each other on well-formed tokens
(R81, R85, R87), and the fields of a token are the numbers of R84's table. Both rest on what R85's map says about the
opcode byte of each type. -/

open Sys2Proof Sys2Proof.Machine

namespace Sys2Proof

/-! ### Three fields side by side -/

section
variable {a b c : Nat}

theorem extractLsb'_append_high (x : BitVec a) (y : BitVec b) (z : BitVec c) :
    (x ++ y ++ z).extractLsb' (c + b) a = x := by
  rw [BitVec.extractLsb'_append_eq_of_le (Nat.le_add_right c b), Nat.add_sub_cancel_left]
  exact BitVec.extractLsb'_append_eq_left

theorem extractLsb'_append_middle (x : BitVec a) (y : BitVec b) (z : BitVec c) :
    (x ++ y ++ z).extractLsb' c b = y := by
  rw [BitVec.extractLsb'_append_eq_of_le (Nat.le_refl c), Nat.sub_self]
  exact BitVec.extractLsb'_append_eq_right

theorem append_three_fields (w : BitVec (a + b + c)) :
    w.extractLsb' (c + b) a ++ w.extractLsb' c b ++ w.extractLsb' 0 c = w := by
  have hhigh : w.extractLsb' (c + b) a ++ w.extractLsb' c b = w.extractLsb' c (a + b) :=
    BitVec.extractLsb'_append_extractLsb'_eq_extractLsb' rfl
  rw [hhigh]
  exact BitVec.extractLsb'_append_extractLsb'

end

/-- A byte of layout `LLMMMDDD` (R81) is its three fields. -/
theorem append_fields (b : Byte) : Byte.field b 6 2 ++ Byte.field b 3 3 ++ Byte.field b 0 3 = b :=
  append_three_fields (a := 2) (b := 3) (c := 3) b

/-- A byte of layout `101LLMMM` (R81) is its three fields. -/
theorem append_fields_medium (b : Byte) : Byte.field b 5 3 ++ Byte.field b 3 2 ++ Byte.field b 0 3 = b :=
  append_three_fields (a := 3) (b := 2) (c := 3) b

/-- A byte of layout `1110NNNN` or `1111NNNN` (R81) is its two halves. -/
theorem append_nibbles (b : Byte) : Byte.field b 4 4 ++ Byte.field b 0 4 = b :=
  BitVec.extractLsb'_append_extractLsb' (w := 4) (len := 4)

/-! ### What R85's map says about the opcode byte of each type -/

section
set_option maxRecDepth 4000

theorem opcode_of_distanceLarge : ∀ b : Byte, classify b = .distanceLarge →
    Byte.field b 0 3 = 0b111#3 ∧ pairEncodable (Byte.field b 6 2) (Byte.field b 3 3) = true := by decide

theorem opcode_of_distanceMedium : ∀ b : Byte, classify b = .distanceMedium →
    Byte.field b 5 3 = 0b101#3 := by decide

theorem opcode_of_distanceSmall : ∀ b : Byte, classify b = .distanceSmall →
    (Byte.field b 0 3).toNat ≤ 5 ∧ pairEncodable (Byte.field b 6 2) (Byte.field b 3 3) = true := by decide

theorem opcode_of_distancePrevious : ∀ b : Byte, classify b = .distancePrevious →
    Byte.field b 0 3 = 0b110#3 ∧ Byte.field b 6 2 ≠ 0 ∧
    pairEncodable (Byte.field b 6 2) (Byte.field b 3 3) = true := by decide

theorem opcode_of_literalLarge : ∀ b : Byte, classify b = .literalLarge → b = 0xE0 := by decide

theorem opcode_of_literalSmall : ∀ b : Byte, classify b = .literalSmall →
    Byte.field b 4 4 = 0b1110#4 ∧ Byte.field b 0 4 ≠ 0 := by decide

theorem opcode_of_matchLarge : ∀ b : Byte, classify b = .matchLarge → b = 0xF0 := by decide

theorem opcode_of_matchSmall : ∀ b : Byte, classify b = .matchSmall →
    Byte.field b 4 4 = 0b1111#4 ∧ Byte.field b 0 4 ≠ 0 := by decide

theorem opcode_of_endOfStream : ∀ b : Byte, classify b = .endOfStream → b = 0x06 := by decide

theorem opcode_of_noOp : ∀ b : Byte, classify b = .noOp → b = 0x0E ∨ b = 0x16 := by decide

theorem opcode_of_invalid : ∀ b : Byte, classify b = .invalid → isInvalidByte b = true := by decide

end

/-! ### The assembled token of each type -/

section
variable {op e1 e2 : Byte}

theorem assemble_distanceLarge (h : classify op = .distanceLarge) :
    assemble op e1 e2 = .distanceLarge (Byte.field op 6 2) (Byte.field op 3 3) (e2 ++ e1) := by
  rw [assemble, h]

theorem assemble_distanceMedium (h : classify op = .distanceMedium) :
    assemble op e1 e2 = .distanceMedium (Byte.field op 3 2) (Byte.field op 0 3 ++ Byte.field e1 0 2)
      (e2 ++ Byte.field e1 2 6) := by
  rw [assemble, h]

theorem assemble_distanceSmall (h : classify op = .distanceSmall) :
    assemble op e1 e2 = .distanceSmall (Byte.field op 6 2) (Byte.field op 3 3) (Byte.field op 0 3 ++ e1) := by
  rw [assemble, h]

theorem assemble_distancePrevious (h : classify op = .distancePrevious) :
    assemble op e1 e2 = .distancePrevious (Byte.field op 6 2) (Byte.field op 3 3) := by
  rw [assemble, h]

theorem assemble_literalLarge (h : classify op = .literalLarge) : assemble op e1 e2 = .literalLarge e1 := by
  rw [assemble, h]

theorem assemble_literalSmall (h : classify op = .literalSmall) :
    assemble op e1 e2 = .literalSmall (Byte.field op 0 4) := by
  rw [assemble, h]

theorem assemble_matchLarge (h : classify op = .matchLarge) : assemble op e1 e2 = .matchLarge e1 := by
  rw [assemble, h]

theorem assemble_matchSmall (h : classify op = .matchSmall) :
    assemble op e1 e2 = .matchSmall (Byte.field op 0 4) := by
  rw [assemble, h]

theorem assemble_endOfStream (h : classify op = .endOfStream) : assemble op e1 e2 = .endOfStream := by
  rw [assemble, h]

theorem assemble_noOp (h : classify op = .noOp) : assemble op e1 e2 = .noOp op := by
  rw [assemble, h]

theorem assemble_invalid (h : classify op = .invalid) : assemble op e1 e2 = .invalid op := by
  rw [assemble, h]

end

/-! ### The numbers the fields are -/

/-- Two fields side by side are a number in base `2 ^ n`. -/
theorem toNat_append_eq_mul_add {m n : Nat} (x : BitVec m) (y : BitVec n) :
    (x ++ y).toNat = x.toNat * 2 ^ n + y.toNat := by
  rw [BitVec.toNat_append, ← Nat.shiftLeft_add_eq_or_of_lt y.isLt, Nat.shiftLeft_eq]

@[simp] theorem toNat_field (b : Byte) (lo len : Nat) : (Byte.field b lo len).toNat = b.toNat / 2 ^ lo % 2 ^ len := by
  rw [Byte.field, BitVec.extractLsb'_toNat, Nat.shiftRight_eq_div_pow]

/-! ### Assembling and encoding are inverse -/

/-- Every assembled token is well formed: R85's map leaves the bytes of every other pair, length and distance to
other types. -/
theorem assemble_wellFormed (op e1 e2 : Byte) : (assemble op e1 e2).WellFormed := by
  cases h : classify op with
  | distanceLarge =>
    obtain ⟨-, hpair⟩ := opcode_of_distanceLarge op h
    rw [assemble_distanceLarge h]
    exact hpair
  | distanceMedium => rw [assemble_distanceMedium h]; rfl
  | distanceSmall =>
    obtain ⟨hlow, hpair⟩ := opcode_of_distanceSmall op h
    have hdist : (Byte.field op 0 3 ++ e1).toNat ≤ 1535 := by
      rw [toNat_append_eq_mul_add]
      omega
    rw [assemble_distanceSmall h, Instr.WellFormed, Instr.check, hpair, decide_eq_true hdist]
    rfl
  | distancePrevious =>
    obtain ⟨-, hlit, hpair⟩ := opcode_of_distancePrevious op h
    rw [assemble_distancePrevious h, Instr.WellFormed, Instr.check, hpair, bne_iff_ne.mpr hlit]
    rfl
  | literalLarge => rw [assemble_literalLarge h]; rfl
  | literalSmall =>
    obtain ⟨-, hlen⟩ := opcode_of_literalSmall op h
    rw [assemble_literalSmall h]
    exact bne_iff_ne.mpr hlen
  | matchLarge => rw [assemble_matchLarge h]; rfl
  | matchSmall =>
    obtain ⟨-, hlen⟩ := opcode_of_matchSmall op h
    rw [assemble_matchSmall h]
    exact bne_iff_ne.mpr hlen
  | endOfStream => rw [assemble_endOfStream h]; rfl
  | noOp =>
    rw [assemble_noOp h]
    rcases opcode_of_noOp op h with rfl | rfl <;> rfl
  | invalid =>
    rw [assemble_invalid h]
    exact opcode_of_invalid op h

/-- The encoding of the assembled token is the bytes it was assembled from, as many as its type has. -/
theorem encode_assemble (op e1 e2 : Byte) :
    encode (assemble op e1 e2) = op :: [e1, e2].take (extraBytes (classify op)) := by
  cases h : classify op with
  | distanceLarge =>
    obtain ⟨hlow, -⟩ := opcode_of_distanceLarge op h
    rw [assemble_distanceLarge h, encode, ← hlow, append_fields, BitVec.extractLsb'_append_eq_right,
      BitVec.extractLsb'_append_eq_left]
    rfl
  | distanceMedium =>
    have he1 : Byte.field e1 2 6 ++ Byte.field e1 0 2 = e1 :=
      BitVec.extractLsb'_append_extractLsb' (w := 6) (len := 2)
    rw [assemble_distanceMedium h, encode, BitVec.extractLsb'_append_eq_right, BitVec.extractLsb'_append_eq_left,
      BitVec.extractLsb'_append_eq_right, BitVec.extractLsb'_append_eq_left,
      ← opcode_of_distanceMedium op h, append_fields_medium, he1]
    rfl
  | distanceSmall =>
    rw [assemble_distanceSmall h, encode, BitVec.extractLsb'_append_eq_right, BitVec.extractLsb'_append_eq_left,
      append_fields]
    rfl
  | distancePrevious =>
    obtain ⟨hlow, -, -⟩ := opcode_of_distancePrevious op h
    rw [assemble_distancePrevious h, encode, ← hlow, append_fields]
    rfl
  | literalLarge => rw [assemble_literalLarge h, opcode_of_literalLarge op h]; rfl
  | literalSmall =>
    obtain ⟨hhigh, -⟩ := opcode_of_literalSmall op h
    rw [assemble_literalSmall h, encode, ← hhigh, append_nibbles]
    rfl
  | matchLarge => rw [assemble_matchLarge h, opcode_of_matchLarge op h]; rfl
  | matchSmall =>
    obtain ⟨hhigh, -⟩ := opcode_of_matchSmall op h
    rw [assemble_matchSmall h, encode, ← hhigh, append_nibbles]
    rfl
  | endOfStream => rw [assemble_endOfStream h, opcode_of_endOfStream op h]; rfl
  | noOp => rw [assemble_noOp h]; rfl
  | invalid => rw [assemble_invalid h]; rfl

/-- The first byte of a well-formed token's encoding is of the token's type, and the type's extra bytes follow. -/
theorem encodedType (i : Instr) : Laws.EncodedType.Statement i := by
  cases i with
  | distanceLarge lit m d => exact Laws.EncodedType.distanceLarge lit m d
  | distanceMedium lit m d => exact Laws.EncodedType.distanceMedium lit m d
  | distanceSmall lit m d => exact Laws.EncodedType.distanceSmall lit m d
  | distancePrevious lit m => exact Laws.EncodedType.distancePrevious lit m
  | literalLarge n => exact Laws.EncodedType.literalLarge n
  | literalSmall n => exact Laws.EncodedType.literalSmall n
  | matchLarge n => exact Laws.EncodedType.matchLarge n
  | matchSmall n => exact Laws.EncodedType.matchSmall n
  | endOfStream => exact Laws.EncodedType.endOfStream
  | noOp b => exact Laws.EncodedType.noOp b
  | invalid b => exact Laws.EncodedType.invalid b

/-- The encoding of a well-formed token is an opcode byte with the extra bytes of that byte's type. -/
theorem exists_encode_eq_cons {i : Instr} (hi : i.WellFormed) :
    ∃ op extra, encode i = op :: extra ∧ extra.length = extraBytes (classify op) := by
  obtain ⟨hclass, hlen⟩ := encodedType i hi
  obtain ⟨op, extra, henc⟩ := List.exists_cons_of_length_eq_add_one (hlen.trans (Nat.add_comm ..))
  rw [henc, List.getD_cons_zero] at hclass
  rw [henc, List.length_cons] at hlen
  exact ⟨op, extra, henc, by rw [hclass]; omega⟩

/-- A token is determined by the opcode byte and the extra bytes of its type: whatever stands behind an encoding, its
first three bytes assemble to the token. -/
theorem assemble_encode_append (i : Instr) (rest : List Byte) (hi : i.WellFormed) :
    assemble ((encode i ++ rest).getD 0 0) ((encode i ++ rest).getD 1 0) ((encode i ++ rest).getD 2 0) = i := by
  obtain ⟨hclass, -⟩ := encodedType i hi
  cases i with
  | distanceLarge lit m d =>
    refine (assemble_distanceLarge hclass).trans ?_
    rw [Instr.distanceLarge.injEq]
    exact ⟨extractLsb'_append_high lit m 0b111#3, extractLsb'_append_middle lit m 0b111#3,
      BitVec.extractLsb'_append_extractLsb' (w := 8) (len := 8)⟩
  | distanceMedium lit m d =>
    refine (assemble_distanceMedium hclass).trans ?_
    have hop : Byte.field (0b101#3 ++ lit ++ m.extractLsb' 2 3) 0 3 = m.extractLsb' 2 3 :=
      BitVec.extractLsb'_append_eq_right
    have hlow : Byte.field (d.extractLsb' 0 6 ++ m.extractLsb' 0 2) 0 2 = m.extractLsb' 0 2 :=
      BitVec.extractLsb'_append_eq_right
    have hhigh : Byte.field (d.extractLsb' 0 6 ++ m.extractLsb' 0 2) 2 6 = d.extractLsb' 0 6 :=
      BitVec.extractLsb'_append_eq_left
    rw [Instr.distanceMedium.injEq]
    exact ⟨extractLsb'_append_middle 0b101#3 lit (m.extractLsb' 2 3),
      (congrArg₂ _ hop hlow).trans (BitVec.extractLsb'_append_extractLsb' (w := 3) (len := 2)),
      (congrArg _ hhigh).trans (BitVec.extractLsb'_append_extractLsb' (w := 8) (len := 6))⟩
  | distanceSmall lit m d =>
    refine (assemble_distanceSmall hclass).trans ?_
    have hlow : Byte.field (lit ++ m ++ d.extractLsb' 8 3) 0 3 = d.extractLsb' 8 3 :=
      BitVec.extractLsb'_append_eq_right
    rw [Instr.distanceSmall.injEq]
    exact ⟨extractLsb'_append_high lit m (d.extractLsb' 8 3), extractLsb'_append_middle lit m (d.extractLsb' 8 3),
      (congrArg (· ++ d.extractLsb' 0 8) hlow).trans (BitVec.extractLsb'_append_extractLsb' (w := 3) (len := 8))⟩
  | distancePrevious lit m =>
    refine (assemble_distancePrevious hclass).trans ?_
    rw [Instr.distancePrevious.injEq]
    exact ⟨extractLsb'_append_high lit m 0b110#3, extractLsb'_append_middle lit m 0b110#3⟩
  | literalLarge n => exact assemble_literalLarge hclass
  | literalSmall n =>
    exact (assemble_literalSmall hclass).trans (congrArg _ BitVec.extractLsb'_append_eq_right)
  | matchLarge n => exact assemble_matchLarge hclass
  | matchSmall n =>
    exact (assemble_matchSmall hclass).trans (congrArg _ BitVec.extractLsb'_append_eq_right)
  | endOfStream => exact assemble_endOfStream hclass
  | noOp b => exact assemble_noOp hclass
  | invalid b => exact assemble_invalid hclass

/-! ### Reading a token off a byte string -/

/-- A type's extra bytes are the first of those that follow the opcode byte. -/
theorem take_pair_getD {bytes : List Byte} {n : Nat} (hn : n ≤ 2) (hlen : n ≤ bytes.length) :
    [bytes.getD 0 0, bytes.getD 1 0].take n = bytes.take n := by
  match n, bytes with
  | 0, _ => rfl
  | 1, _ :: _ => rfl
  | 2, _ :: _ :: _ => rfl

/-- The decoder on a string that begins with an opcode byte and its extra bytes. -/
theorem decode_cons_append {op : Byte} {extra rest : List Byte} (hlen : extra.length = extraBytes (classify op)) :
    decode (op :: (extra ++ rest)) =
      .ok (assemble op ((extra ++ rest).getD 0 0) ((extra ++ rest).getD 1 0), rest) := by
  rw [decode_cons, if_neg (by rw [List.length_append]; omega), ← hlen, List.drop_left]

/-! ### The numbers a token's operands stand for (R84) -/

/-- `OPCODE[7:6]`, the literal length of three of the distance types. -/
theorem toNat_shortLiteral_high (op : Byte) : (shortLiteral (Byte.field op 6 2)).toNat = op.toNat / 64 := by
  rw [shortLiteral, BitVec.toNat_setWidth, toNat_field]
  omega

/-- `OPCODE[4:3]`, the literal length of DISTANCE_MEDIUM. -/
theorem toNat_shortLiteral_medium (op : Byte) : (shortLiteral (Byte.field op 3 2)).toNat = op.toNat / 8 % 4 := by
  rw [shortLiteral, BitVec.toNat_setWidth, toNat_field]
  omega

/-- `OPCODE[5:3] + 3`. -/
theorem toNat_shortMatch_field (op : Byte) : (shortMatch (Byte.field op 3 3)).toNat = op.toNat / 8 % 8 + 3 := by
  rw [shortMatch, BitVec.toNat_add, BitVec.toNat_setWidth, toNat_field, show (3 : Half).toNat = 3 from rfl]
  omega

/-- `((OPCODE[2:0] << 2) | E1[1:0]) + 3`. -/
theorem toNat_mediumMatch_fields (op e1 : Byte) :
    (mediumMatch (Byte.field op 0 3 ++ Byte.field e1 0 2)).toNat = op.toNat % 8 * 4 + e1.toNat % 4 + 3 := by
  have hfields := toNat_append_eq_mul_add (Byte.field op 0 3) (Byte.field e1 0 2)
  rw [toNat_field, toNat_field] at hfields
  rw [mediumMatch, BitVec.toNat_add, BitVec.toNat_setWidth, hfields, show (3 : Half).toNat = 3 from rfl]
  omega

/-- `E1 + 16`. -/
theorem toNat_largeLength (e1 : Byte) : (largeLength e1).toNat = e1.toNat + 16 := by
  rw [largeLength, BitVec.toNat_add, BitVec.toNat_setWidth, show (16 : Half).toNat = 16 from rfl]
  omega

/-- `OPCODE[3:0]`. -/
theorem toNat_smallLength_field (op : Byte) : (smallLength (Byte.field op 0 4)).toNat = op.toNat % 16 := by
  rw [smallLength, BitVec.toNat_setWidth, toNat_field]
  omega

/-- `(E2 << 8) | E1`. -/
theorem toNat_largeDistance_bytes (e1 e2 : Byte) : BitVec.toNat (w := 16) (e2 ++ e1) = e2.toNat * 256 + e1.toNat :=
  toNat_append_eq_mul_add e2 e1

/-- `(E2 << 6) | E1[7:2]`. -/
theorem toNat_mediumDistance_fields (e1 e2 : Byte) :
    (mediumDistance (e2 ++ Byte.field e1 2 6)).toNat = e2.toNat * 64 + e1.toNat / 4 := by
  have hfields := toNat_append_eq_mul_add e2 (Byte.field e1 2 6)
  rw [toNat_field] at hfields
  rw [mediumDistance, BitVec.toNat_setWidth, hfields]
  omega

/-- `(OPCODE[2:0] << 8) | E1`. -/
theorem toNat_smallDistance_fields (op e1 : Byte) :
    (smallDistance (Byte.field op 0 3 ++ e1)).toNat = op.toNat % 8 * 256 + e1.toNat := by
  have hfields := toNat_append_eq_mul_add (Byte.field op 0 3) e1
  rw [toNat_field] at hfields
  rw [smallDistance, BitVec.toNat_setWidth, hfields]
  omega

/-- A field that is not zero is a number of at least 1. -/
theorem one_le_of_field_ne_zero {b : Byte} {lo len : Nat} (h : Byte.field b lo len ≠ 0) :
    1 ≤ b.toNat / 2 ^ lo % 2 ^ len := by
  rw [← toNat_field]
  exact Nat.one_le_iff_ne_zero.mpr fun hzero => h (BitVec.eq_of_toNat_eq hzero)

end Sys2Proof

/-- Settles O3: the encoding is an opcode byte of the token's type with that type's extra bytes, and its bytes assemble
to the token. -/
theorem decodeOfEncodeIsTheToken : Obligations.DecodeOfEncodeIsTheToken := by
  intro i rest hi
  have hassemble := assemble_encode_append i rest hi
  obtain ⟨op, extra, henc, hlen⟩ := exists_encode_eq_cons hi
  rw [henc] at hassemble ⊢
  rw [List.cons_append, decode_cons_append hlen]
  exact congrArg (fun j => Except.ok (j, rest)) hassemble

/-- Settles O4: what the decoder answers is an assembled token, which is well formed and encodes to the bytes it was
assembled from. -/
theorem encodeOfDecodeIsTheBytes : Obligations.EncodeOfDecodeIsTheBytes := by
  intro bytes i rest h
  obtain ⟨op, tail, rfl, hlen, rfl, rfl⟩ := decode_ok h
  refine ⟨assemble_wellFormed .., ?_⟩
  rw [encode_assemble, take_pair_getD (extraBytes_le_two _) hlen, List.cons_append, List.take_append_drop]

/-- Settles O5, type by type: the token is known from the type, its fields are quotients and remainders of its bytes,
and the bounds narrower than the fields are those R85's map puts on the opcode byte. -/
theorem fieldsAssembleAsTabled : Obligations.FieldsAssembleAsTabled := by
  rintro op e1 e2 i rfl
  refine ⟨fun h => ?_, fun h => ?_, fun h => ?_, fun h => ?_, fun h => ?_, fun h => ?_, fun h => ?_, fun h => ?_,
    fun h => ?_⟩
  · obtain ⟨hlow, -⟩ := opcode_of_distanceSmall op h
    rw [toNat_field] at hlow
    rw [assemble_distanceSmall h]
    simp only [literalLength, matchLength, ownDistance, Option.map_some, toNat_shortLiteral_high,
      toNat_shortMatch_field, toNat_smallDistance_fields]
    exact ⟨trivial, trivial, trivial, by omega, by omega, by omega, by omega⟩
  · rw [assemble_distanceLarge h]
    simp only [literalLength, matchLength, ownDistance, Option.map_some, toNat_shortLiteral_high,
      toNat_shortMatch_field, toNat_largeDistance_bytes]
    exact ⟨trivial, trivial, trivial, by omega, by omega, by omega⟩
  · obtain ⟨-, hlit, hpair⟩ := opcode_of_distancePrevious op h
    have hlit' := one_le_of_field_ne_zero hlit
    rw [pairEncodable, decide_eq_true_iff, toNat_field, toNat_field] at hpair
    rw [assemble_distancePrevious h]
    simp only [literalLength, matchLength, ownDistance, toNat_shortLiteral_high, toNat_shortMatch_field]
    exact ⟨trivial, trivial, trivial, by omega, by omega, by omega, by omega⟩
  · rw [assemble_distanceMedium h]
    simp only [literalLength, matchLength, ownDistance, Option.map_some, toNat_shortLiteral_medium,
      toNat_mediumMatch_fields, toNat_mediumDistance_fields]
    exact ⟨trivial, trivial, trivial, by omega, by omega, by omega, by omega⟩
  · rw [assemble_literalLarge h]
    simp only [literalLength, matchLength, ownDistance, toNat_largeLength]
    exact ⟨trivial, rfl, trivial, by omega, by omega⟩
  · obtain ⟨-, hlen⟩ := opcode_of_literalSmall op h
    have hlen' := one_le_of_field_ne_zero hlen
    rw [assemble_literalSmall h]
    simp only [literalLength, matchLength, ownDistance, toNat_smallLength_field]
    exact ⟨trivial, rfl, trivial, by omega, by omega⟩
  · rw [assemble_matchLarge h]
    simp only [literalLength, matchLength, ownDistance, toNat_largeLength]
    exact ⟨rfl, trivial, trivial, by omega, by omega⟩
  · obtain ⟨-, hlen⟩ := opcode_of_matchSmall op h
    have hlen' := one_le_of_field_ne_zero hlen
    rw [assemble_matchSmall h]
    simp only [literalLength, matchLength, ownDistance, toNat_smallLength_field]
    exact ⟨rfl, trivial, trivial, by omega, by omega⟩
  · rcases h with h | h | h
    · rw [assemble_endOfStream h]
      exact ⟨rfl, rfl, rfl⟩
    · rw [assemble_noOp h]
      exact ⟨rfl, rfl, rfl⟩
    · rw [assemble_invalid h]
      exact ⟨rfl, rfl, rfl⟩

/-- Settles O2, by running the decoder on each word. -/
theorem writtenWordsDecode : Obligations.WrittenWordsDecode :=
  ⟨rfl, rfl, rfl, rfl, rfl, rfl, rfl, rfl, rfl, rfl, rfl, rfl, rfl, rfl⟩
end

section
/-! The classifier (spec/40_classifier.md): its table passes the checks of R115. The ranges of check (b) are read off the
arithmetic classifier of R86, the low bits of check (d) off what R85's map says about the opcode byte of each type. -/

open Sys2Proof

namespace Sys2Proof

set_option maxRecDepth 4000 in
/-- R112's counts, which sum to the table's 256 entries. -/
theorem classTable_counts :
    classTable.length = 256 ∧ classTable.count .distanceLarge = 20 ∧ classTable.count .distanceMedium = 32 ∧
    classTable.count .distanceSmall = 120 ∧ classTable.count .distancePrevious = 12 ∧
    classTable.count .literalLarge = 1 ∧ classTable.count .literalSmall = 15 ∧ classTable.count .matchLarge = 1 ∧
    classTable.count .matchSmall = 15 ∧ classTable.count .endOfStream = 1 ∧ classTable.count .noOp = 2 ∧
    classTable.count .invalid = 37 :=
  ⟨rfl, rfl, rfl, rfl, rfl, rfl, rfl, rfl, rfl, rfl, rfl, rfl⟩

/-- The bytes of high nibble 7 or 13 lie below the literal and match rows, and R86 asks for that nibble next. -/
theorem classify_eq_invalid_of_range {b : Byte}
    (hrange : (0x70 ≤ b.toNat ∧ b.toNat ≤ 0x7F) ∨ (0xD0 ≤ b.toNat ∧ b.toNat ≤ 0xDF)) : classify b = .invalid := by
  have hnibble : Byte.field b 4 4 = 0x7 ∨ Byte.field b 4 4 = 0xD := by
    have hfield := toNat_field b 4 4
    rcases hrange with h | h
    · exact .inl (BitVec.eq_of_toNat_eq (by rw [hfield, show (0x7 : BitVec 4).toNat = 7 from rfl]; omega))
    · exact .inr (BitVec.eq_of_toNat_eq (by rw [hfield, show (0xD : BitVec 4).toNat = 13 from rfl]; omega))
  rw [classify_eq_arith, classifyArith, if_neg (by omega), if_neg (by omega), if_pos hnibble]

end Sys2Proof

/-- Settles O1, check by check: the counts and the two single bytes by computing the table, the others from R86 and
R85's map. -/
theorem classifierPassesItsChecks : Obligations.ClassifierPassesItsChecks := by
  refine ⟨classTable_counts, fun _ => classify_eq_invalid_of_range, ⟨rfl, rfl⟩, fun b => ⟨fun h => ?_, fun h => ?_,
    fun h => ?_⟩, classify_eq_arith⟩
  · exact (opcode_of_distanceSmall b h).1
  · obtain ⟨hlow, hlit, -⟩ := opcode_of_distancePrevious b h
    exact ⟨congrArg BitVec.toNat hlow, hlit⟩
  · exact congrArg BitVec.toNat (opcode_of_distanceLarge b h).1
end

section
/-! The decode loop (spec/41_decode_loop.md): the stop conditions (R121), the token a fetch finds (R122 to R125), how far
one iteration moves the cursors (R130, R131), and that a call ends. -/

open Sys2Proof Sys2Proof.Machine

namespace Sys2Proof.Machine

/-! ### Stop conditions and fetch -/

/-- A rested turn is the engine's. -/
theorem step_of_rest_turn {s s0 : State} (h : s.turn = (.rest, s0)) : step s = engineStep s0 := step_of_turn h

/-- At the input's end the call stops, whether or not the output is full (R121, the spec's D11). -/
theorem runStep_of_input_end {s : State} (h : s.rc = s.inSize) : runStep s = .next (s.stop .inputEnd) := if_pos h

theorem runStep_of_output_full {s : State} (h : s.rc ≠ s.inSize) (hfull : s.wc = s.cap) :
    runStep s = .next (s.stop .outputFull) := by
  rw [runStep, if_neg h, if_pos hfull]

/-- When no stop condition holds, the step is steps 2 to 7 of the loop (R120). -/
theorem step_of_fetching {s s0 : State} (h : s.Fetching s0) : step s = tokenStep s0 := by
  obtain ⟨hturn, hrun, hin, hfull⟩ := h
  rw [step_of_rest_turn hturn, turn_frame hturn]
  exact engineStep_token hrun hin hfull

/-- An extra byte that the opcode's type does not have is not looked at (R84). -/
theorem assemble_own_extra_bytes (op e1 e2 : Byte) :
    assemble op (if 1 ≤ extraBytes (classify op) then e1 else 0) (if 2 ≤ extraBytes (classify op) then e2 else 0) =
      assemble op e1 e2 := by
  unfold assemble
  cases classify op <;> simp [extraBytes]

/-- The fetch reads the bytes of `SRC` at `RC`, so what it leaves can be told from them. -/
theorem fetched_eq_afterFetch {s : State} {i : Instr} {op : Byte} {tail : List Byte} (hbytes : s.HasBytes (op :: tail))
    (hlen : extraBytes (classify op) ≤ tail.length) (hi : i.opType = classify op) :
    s.fetched i (op :: tail) = s.afterFetch op := by
  obtain ⟨-, hread⟩ := hbytes
  have hextra : ∀ k, k ≤ extraBytes (classify op) → (s.src.read (s.rc + k)).getD 0 = (op :: tail).getD k 0 := by
    intro k hk
    rw [hread k (by rw [List.length_cons]; omega), List.getD_eq_getElem?_getD]
  simp only [State.fetched, State.afterFetch, hi, List.getD_cons_zero]
  congr 1
  · split
    · rw [hextra 1 ‹_›]
    · rfl
  · split
    · rw [hextra 2 ‹_›]
    · rfl

/-- The token registers then hold the token that was decoded. -/
theorem token_fetched {s : State} {i : Instr} {op : Byte} {tail : List Byte}
    (hi : i = assemble op (tail.getD 0 0) (tail.getD 1 0)) : (s.fetched i (op :: tail)).token = i := by
  have htype : i.opType = classify op := hi ▸ opType_assemble _ _ _
  simp only [State.token, State.fetched, htype]
  exact (assemble_own_extra_bytes op _ _).trans hi.symm

/-- Steps 2 to 7 run the token that the bytes at `RC` decode to (R122 to R125). -/
theorem tokenStep_of_decode {s : State} {bytes rest : List Byte} {i : Instr} (hbytes : s.HasBytes bytes)
    (h : decode bytes = .ok (i, rest)) : tokenStep s = exec i (s.fetched i bytes) := by
  obtain ⟨op, tail, rfl, hlen, hi, -⟩ := decode_ok h
  have htype : i.opType = classify op := hi ▸ opType_assemble _ _ _
  have ⟨hwithin, hread⟩ := hbytes
  rw [List.length_cons] at hwithin hread
  have hpresent : ∀ k, k < extraBytes (classify op) → (s.src.read (s.rc + 1 + k)).isSome := by
    intro k hk
    rw [Nat.add_assoc, hread (1 + k) (by omega), isSome_getElem?]
    simp only [List.length_cons]
    omega
  rw [tokenStep_fits (by omega) (hread 0 (Nat.succ_pos _)) (by omega) hpresent, ← fetched_eq_afterFetch hbytes hlen htype,
    token_fetched hi]

/-! ### The lengths of a token (R83, R131) -/

theorem shortLiteral_le : ∀ lit : BitVec 2, (shortLiteral lit).toNat ≤ 3 := by decide

theorem shortMatch_le : ∀ m : BitVec 3, (shortMatch m).toNat ≤ 10 := by decide

theorem mediumMatch_le : ∀ m : BitVec 5, (mediumMatch m).toNat ≤ 34 := by decide

theorem largeLength_le (n : BitVec 8) : (largeLength n).toNat ≤ 271 := by
  rw [toNat_largeLength]
  omega

theorem smallLength_le : ∀ n : BitVec 4, (smallLength n).toNat ≤ 15 := by decide

/-- Bounds on a token's extra bytes and lengths that keep within the longest token and the largest output. -/
theorem lengths_le_of {i : Instr} {extra lit mat : Nat} (hextra : extraBytes i.opType ≤ extra)
    (hlit : (literalLength i).toNat ≤ lit) (hmat : (matchLength i).toNat ≤ mat) (hin : 1 + extra + lit ≤ longestToken)
    (hout : lit + mat ≤ longestOutput) :
    1 + extraBytes i.opType + (literalLength i).toNat ≤ longestToken ∧
    (literalLength i).toNat + (matchLength i).toNat ≤ longestOutput := ⟨by omega, by omega⟩

/-- The longest token is LITERAL_LARGE's, the largest output LITERAL_LARGE's or MATCH_LARGE's. -/
theorem lengths_le (i : Instr) :
    1 + extraBytes i.opType + (literalLength i).toNat ≤ longestToken ∧
    (literalLength i).toNat + (matchLength i).toNat ≤ longestOutput := by
  have zero : (0 : Half).toNat ≤ 0 := Nat.le_refl 0
  cases i with
  | distanceLarge lit m d =>
    exact lengths_le_of (Nat.le_refl 2) (shortLiteral_le lit) (shortMatch_le m) (by decide) (by decide)
  | distanceMedium lit m d =>
    exact lengths_le_of (Nat.le_refl 2) (shortLiteral_le lit) (mediumMatch_le m) (by decide) (by decide)
  | distanceSmall lit m d =>
    exact lengths_le_of (Nat.le_refl 1) (shortLiteral_le lit) (shortMatch_le m) (by decide) (by decide)
  | distancePrevious lit m =>
    exact lengths_le_of (Nat.le_refl 0) (shortLiteral_le lit) (shortMatch_le m) (by decide) (by decide)
  | literalLarge n => exact lengths_le_of (Nat.le_refl 1) (largeLength_le n) zero (by decide) (by decide)
  | literalSmall n => exact lengths_le_of (Nat.le_refl 0) (smallLength_le n) zero (by decide) (by decide)
  | matchLarge n => exact lengths_le_of (Nat.le_refl 1) zero (largeLength_le n) (by decide) (by decide)
  | matchSmall n => exact lengths_le_of (Nat.le_refl 0) zero (smallLength_le n) (by decide) (by decide)
  | endOfStream => exact lengths_le_of (Nat.le_refl 0) zero zero (by decide) (by decide)
  | noOp b => exact lengths_le_of (Nat.le_refl 0) zero zero (by decide) (by decide)
  | invalid b => exact lengths_le_of (Nat.le_refl 0) zero zero (by decide) (by decide)

/-! ### How far one iteration moves the cursors -/

/-- The state a token's meaning leaves when it runs to its end: extracted, both cursors past what it copied (R128). -/
def State.completed (s : State) (i : Instr) (dst : Memory) : State :=
  { s.extracted i with
    rc := s.rc + (literalLength i).toNat
    wc := s.wc + ((literalLength i).toNat + (matchLength i).toNat)
    dst := dst }

/-- A meaning that does not end the call ran to its end. NONE is no exception: its lengths are 0, as the fetch left
them (R123). -/
theorem exec_of_goesOn {i : Instr} {s t : State} (hlit : s.litLen = 0) (hmat : s.matchLen = 0)
    (h : exec i s = .next t) (hrun : t.runState = .run) : ∃ dst, t = s.completed i dst := by
  rcases exec_next h with ⟨-, rfl⟩ | ⟨hi, rfl⟩ | ⟨-, rfl⟩ | ⟨-, ⟨u, c, r, -⟩ | ⟨rfl, -⟩ | ⟨u, c, -, rfl, -⟩⟩
  · cases hrun
  · cases i with
    | noOp b =>
      cases t
      cases hlit
      cases hmat
      exact ⟨_, rfl⟩
    | _ => cases hi
  · cases hrun
  · refine ⟨t.dst, ?_⟩
    rw [State.completed, ← Nat.add_assoc]
    exact complete_frame c r
  · cases hrun
  · cases hrun

/-- However a meaning ends, neither cursor is moved further than by the token's lengths. -/
theorem exec_cursors_le {i : Instr} {s t : State} (h : exec i s = .next t) :
    t.rc ≤ s.rc + (literalLength i).toNat ∧ t.wc ≤ s.wc + ((literalLength i).toNat + (matchLength i).toNat) := by
  rcases exec_next h with ⟨-, rfl⟩ | ⟨-, rfl⟩ | ⟨-, rfl⟩ | ⟨-, ⟨u, c, r, -⟩ | ⟨rfl, -⟩ | ⟨u, c, -, rfl, -⟩⟩
  · exact ⟨Nat.le_add_right _ _, Nat.le_add_right _ _⟩
  · exact ⟨Nat.le_add_right _ _, Nat.le_add_right _ _⟩
  · exact ⟨Nat.le_add_right _ _, Nat.le_add_right _ _⟩
  · rw [complete_frame c r]
    exact ⟨Nat.le_refl _, (Nat.add_assoc _ _ _).le⟩
  · exact ⟨Nat.le_add_right _ _, Nat.le_add_right _ _⟩
  · rw [match_trap_frame c]
    exact ⟨Nat.le_refl _, Nat.add_le_add_left (Nat.le_add_right _ _) _⟩

/-- No turn of the engine consumes or produces more than the longest token does, trapping turns included (R131). -/
theorem engineStep_cursors_le {s t : State} (h : engineStep s = .next t) :
    t.rc ≤ s.rc + longestToken ∧ t.wc ≤ s.wc + longestOutput := by
  rcases engineStep_next h with ⟨-, rfl⟩ | ⟨-, ⟨-, rfl⟩ | ⟨-, -, rfl⟩ | ⟨-, -, htoken⟩⟩
  · exact ⟨Nat.le_add_right _ _, Nat.le_add_right _ _⟩
  · exact ⟨Nat.le_add_right _ _, Nat.le_add_right _ _⟩
  · exact ⟨Nat.le_add_right _ _, Nat.le_add_right _ _⟩
  obtain ⟨b, -, -, ⟨-, rfl⟩ | ⟨-, hexec⟩⟩ := tokenStep_next htoken
  · exact ⟨Nat.add_le_add_left (by decide) _, Nat.le_add_right _ _⟩
  · obtain ⟨hrc, hwc⟩ := exec_cursors_le hexec
    obtain ⟨hin, hout⟩ := lengths_le (s.afterFetch b).token
    have htype : (s.afterFetch b).token.opType = classify b := opType_assemble _ _ _
    rw [htype] at hin
    have hfetch : (s.afterFetch b).rc = s.rc + 1 + extraBytes (classify b) := rfl
    exact ⟨by omega, hwc.trans (Nat.add_le_add_left hout _)⟩

/-- An iteration that does not end the call fetched a token and ran its meaning to the end (R129, R130). -/
theorem engineStep_of_goesOn {s t : State} (hrun : s.runState = .run) (h : engineStep s = .next t)
    (hrun' : t.runState = .run) :
    ∃ b dst, s.src.read s.rc = some b ∧ t = (s.afterFetch b).completed (s.afterFetch b).token dst := by
  rcases engineStep_next h with ⟨hout, -⟩ | ⟨-, ⟨-, rfl⟩ | ⟨-, -, rfl⟩ | ⟨-, -, htoken⟩⟩
  · exact absurd hrun hout
  · cases hrun'
  · cases hrun'
  obtain ⟨b, -, hb, ⟨-, rfl⟩ | ⟨-, hexec⟩⟩ := tokenStep_next htoken
  · cases hrun'
  · obtain ⟨dst, ht⟩ := exec_of_goesOn rfl rfl hexec hrun'
    exact ⟨b, dst, hb, ht⟩

/-- The opcode byte alone makes every iteration that does not end the call advance `RC`, within the same input (R131). -/
theorem engineStep_rc_lt {s t : State} (hrun : s.runState = .run) (h : engineStep s = .next t)
    (hrun' : t.runState = .run) : s.rc < t.rc ∧ t.inSize = s.inSize := by
  obtain ⟨b, dst, -, rfl⟩ := engineStep_of_goesOn hrun h hrun'
  refine ⟨?_, rfl⟩
  show s.rc < s.rc + 1 + extraBytes (classify b) + (literalLength (s.afterFetch b).token).toNat
  omega

/-! ### The end of a call -/

theorem State.SameCall.refl (s : State) : s.SameCall s := ⟨rfl, fun _ _ => rfl⟩

/-- A sound state's engine always has an answer: no guarded access faults (R147). -/
theorem engineStep_total {s : State} (h : s.Inv) : ∃ t, engineStep s = .next t := by
  obtain ⟨t, -, ht, -⟩ := engineStep_inStep (.refl s) h
  exact ⟨t, ht⟩

/-- After the end of a call the machine stays as it is while the host rests (R26). -/
theorem run_of_not_run (k : Nat) {s : State} (hrest : s.schedule = []) (hout : s.runState ≠ .run) :
    Host.Core.run Sys2Proof.core k s = .next s := by
  induction k with
  | zero => rfl
  | succ k ih =>
    rw [core_run_succ ((step_of_rest hrest).trans (engineStep_of_not_run hout))]
    exact ih

/-- More steps than there are bytes of input left end the call: each step that does not end it consumes at least one. -/
theorem run_ends {k : Nat} {s : State} (hinv : s.Inv) (hrun : s.runState = .run) (hrest : s.schedule = [])
    (hk : s.inSize - s.rc < k) :
    ∃ t, Host.Core.run Sys2Proof.core k s = .next t ∧ (t.runState = .done ∨ t.runState = .fault) := by
  induction k generalizing s with
  | zero => exact absurd hk (Nat.not_lt_zero _)
  | succ k ih =>
    obtain ⟨u, hu⟩ := engineStep_total hinv
    have hstep : step s = .next u := (step_of_rest hrest).trans hu
    have hrest' : u.schedule = [] := (engineStep_schedule hu).trans hrest
    rw [core_run_succ hstep]
    by_cases hrun' : u.runState = .run
    · have hinv' : u.Inv := stepKeepsTheInvariant s u hinv hstep
      have ⟨_, _, hcall⟩ := hinv'
      obtain ⟨hwithin, -⟩ := hcall hrun'
      obtain ⟨hlt, hsize⟩ := engineStep_rc_lt hrun hu hrun'
      exact ih hinv' hrun' hrest' (by omega)
    · obtain ⟨hout, -⟩ | ⟨-, it⟩ := engineStep_iteration hu
      · exact absurd hrun hout
      · refine ⟨u, run_of_not_run k hrest' hrun', (iteration_runState it).resolve_left fun hsame => ?_⟩
        exact hrun' (hsame.trans hrun)

end Sys2Proof.Machine

/-- Settles O35: each step's bounds are those of the longest token, and `IN_SIZE - RC` shrinks until the call ends. -/
theorem callTerminates : Obligations.CallTerminates := by
  intro s hinv hrun hrest
  refine ⟨fun t hstep => ?_, run_ends hinv hrun hrest (Nat.lt_succ_self _)⟩
  rw [step_of_rest hrest] at hstep
  exact ⟨fun hrun' => (engineStep_rc_lt hrun hstep hrun').1, engineStep_cursors_le hstep⟩

/-- Settles O34: a step that does not end the call leaves the fetched token's completed state, whose registers name the
token. -/
theorem everyIterationAdvances : Obligations.EveryIterationAdvances := by
  intro s s0 t hturn hrun hstep hrun'
  obtain ⟨ms, rfl⟩ : ∃ ms, s0 = { s with schedule := ms } := ⟨_, turn_frame hturn⟩
  rw [step_of_rest_turn hturn] at hstep
  obtain ⟨hrc, hwc⟩ := engineStep_cursors_le hstep
  obtain ⟨b, dst, hb, rfl⟩ := engineStep_of_goesOn (s := { s with schedule := ms }) hrun hstep hrun'
  refine ⟨?_, rfl, hb, rfl, rfl, rfl, hrc, hwc⟩
  exact (congrArg (· + _) (Nat.add_assoc _ _ _)).trans (Nat.add_assoc _ _ _)

/-- Settles O14, by the two tests at the top of an iteration. -/
theorem stopConditions : Obligations.StopConditions := by
  intro s s0 hturn hrun
  rw [step_of_rest_turn hturn]
  obtain ⟨ms, rfl⟩ : ∃ ms, s0 = { s with schedule := ms } := ⟨_, turn_frame hturn⟩
  rw [engineStep_of_run (s := { s with schedule := ms }) hrun]
  exact ⟨runStep_of_input_end (s := { s with schedule := ms }), runStep_of_output_full (s := { s with schedule := ms })⟩

/-- Settles O15: the fetch leaves the state the decoded bytes describe, and the token registers in it hold the decoded
token. -/
theorem stepRunsTheDecodedToken : Obligations.StepRunsTheDecodedToken := by
  intro s s0 bytes i rest hfetching hbytes hdecode
  have ⟨hturn, _⟩ := hfetching
  have hbytes0 : s0.HasBytes bytes := by
    rw [turn_frame hturn]
    exact hbytes
  rw [step_of_fetching hfetching]
  exact tokenStep_of_decode hbytes0 hdecode
end

section
/-! The boundary guard (spec/42_boundary_guard.md): what each of its tests traps and lets pass (R141 to R146), and that
behind it no access is illegal (R147). -/

open Sys2Proof Sys2Proof.Machine

namespace Sys2Proof.Machine

/-! ### No step faults (R147) -/

theorem unlessRunning_ne_fault {s : State} {r : Result} (h : ∀ f, r ≠ .fault f) (f : Fault) :
    s.unlessRunning r ≠ .fault f := by
  by_cases hrun : s.runState = .run
  · rw [unlessRunning_of_run hrun]
    nofun
  · rw [unlessRunning_of_not_run hrun]
    exact h f

theorem ifFits_ne_fault (v : Nat) (s : State) (f : Fault) : ifFits v s ≠ .fault f := by
  rcases Nat.lt_or_ge v (2 ^ Config.aw) with h | h
  · rw [ifFits_of_lt h]
    nofun
  · rw [ifFits_of_le h]
    nofun

theorem start_ne_fault (s : State) (f : Fault) : s.start ≠ .fault f := by
  unfold State.start
  split
  · split <;> nofun
  · nofun

/-- The host's moves access no buffer, so only the engine's turn rests on the invariant. -/
theorem hostAct_ne_fault {s : State} (h : s.Inv) (m : HostMove) (f : Fault) : s.hostAct m ≠ .fault f := by
  cases m with
  | rest =>
    obtain ⟨t, ht⟩ := engineStep_total h
    rw [State.hostAct, ht]
    nofun
  | powerOnReset => nofun
  | poll => nofun
  | collect => exact unlessRunning_ne_fault (by nofun) f
  | supplySrc => exact unlessRunning_ne_fault (by nofun) f
  | supplyDst => exact unlessRunning_ne_fault (by nofun) f
  | writeSrcPresent => exact unlessRunning_ne_fault (by nofun) f
  | writeSrcSize => exact unlessRunning_ne_fault (ifFits_ne_fault _ _) f
  | writeDstPresent => exact unlessRunning_ne_fault (by nofun) f
  | writeDstCap => exact unlessRunning_ne_fault (ifFits_ne_fault _ _) f
  | start => exact unlessRunning_ne_fault (start_ne_fault _) f
  | startWithOverlap => exact unlessRunning_ne_fault (by nofun) f

/-- The invariant does not look at the host's plan. -/
theorem turn_inv {s s0 : State} {m : HostMove} (hturn : s.turn = (m, s0)) (h : s.Inv) : s0.Inv := by
  rw [turn_frame hturn]
  exact h

/-! ### The two copy guards (R142 to R145) -/

/-- A token that copies anything is none of the control opcodes. -/
theorem exec_of_length_ne_zero {i : Instr} (h : literalLength i ≠ 0 ∨ matchLength i ≠ 0) (s : State) :
    exec i s = runCopies (s.extracted i) := by
  cases i with
  | endOfStream => simp [literalLength, matchLength] at h
  | noOp => simp [literalLength, matchLength] at h
  | invalid => simp [literalLength, matchLength] at h
  | _ => rfl

theorem runCopies_of_literal_trap {s : State} (h0 : s.litLen ≠ 0) (hn : ¬ s.literalFits) :
    runCopies s = .next (s.raiseToken .outOfBounds) := by
  rw [runCopies, literalPhase_trap h0 hn]
  rfl

/-- What the match guard tests, in terms of the state before the literal was copied. -/
theorem Copied.matchFits_iff {i : Instr} {s u : State} {n : Nat} (c : Copied n (s.extracted i) u) :
    u.matchFits ↔ ((ownDistance i).getD s.prevDist).toNat ≤ s.wc + n ∧ (ownDistance i).getD s.prevDist ≠ 0 ∧
      (matchLength i).toNat ≤ s.cap - (s.wc + n) := by
  obtain ⟨-, hwc, hcap, hdist, hmat, -⟩ := c.regs
  rw [State.matchFits, hwc, hcap, hdist, hmat, Ne, ← half_eq_zero_iff]
  rfl

/-- A token whose literal fits, is there, and is followed by a match that its guard rejects: the literal is copied, then
the trap is taken (R128). -/
theorem exec_of_match_trap {i : Instr} {s : State} (hmat : matchLength i ≠ 0) (hfits : (s.extracted i).literalFits)
    (hsrc : ∀ k, k < (literalLength i).toNat → (s.src.read (s.rc + k)).isSome)
    (hguard : ¬ (((ownDistance i).getD s.prevDist).toNat ≤ s.wc + (literalLength i).toNat ∧
      (ownDistance i).getD s.prevDist ≠ 0 ∧ (matchLength i).toNat ≤ s.cap - (s.wc + (literalLength i).toNat))) :
    ∃ u, Copied (literalLength i).toNat (s.extracted i) u ∧ exec i s = .next (u.raiseToken .outOfBounds) := by
  obtain ⟨u, hu, c⟩ := literalPhase_ok (.inr hfits) hsrc
  obtain ⟨-, -, -, -, hmatEq, -⟩ := c.regs
  refine ⟨u, c, ?_⟩
  rw [exec_of_length_ne_zero (.inr hmat), runCopies, hu]
  simp only [matchPhase_trap (hmatEq ▸ hmat) (mt c.matchFits_iff.mp hguard), settle]

/-- However a token whose literal fits ends, its literal stands copied in the state `u` between its two phases, and it
then completes or is trapped by the match guard. -/
theorem exec_next_of_literalFits {i : Instr} {s t : State} (h0 : literalLength i ≠ 0 ∨ matchLength i ≠ 0)
    (hfits : (s.extracted i).literalFits) (h : exec i s = .next t) :
    ∃ u, Copied (literalLength i).toNat (s.extracted i) u ∧
      (Replayed (matchLength i).toNat u t ∨ t = u.raiseToken .outOfBounds ∧ ¬ u.matchFits) := by
  rw [exec_of_length_ne_zero h0] at h
  rcases runCopies_next h with ⟨u, c, r, -⟩ | ⟨-, -, hn⟩ | ⟨u, c, -, ht, -, hn⟩
  · obtain ⟨-, -, -, -, hmat, -⟩ := c.regs
    rw [hmat] at r
    exact ⟨u, c, .inl r⟩
  · exact absurd hfits hn
  · exact ⟨u, c, .inr ⟨ht, hn⟩⟩

end Sys2Proof.Machine

/-- Settles O33: the host's moves access no buffer, and a sound state's engine always has an answer. -/
theorem guardsKeepEveryAccessLegal : Obligations.GuardsKeepEveryAccessLegal := by
  intro s hinv
  refine ⟨hostAct_ne_fault (turn_inv rfl hinv) s.turn.1, fun s0 hturn => ?_⟩
  rw [step_of_rest_turn hturn]
  exact engineStep_total (turn_inv hturn hinv)

/-- Settles O24: the literal guard is the first test behind extraction, and whatever follows a literal that passes
leaves `RC` and the payload it stored alone. -/
theorem literalGuardTraps : Obligations.LiteralGuardTraps := by
  refine ⟨fun i s h0 hshort => ?_, fun i s t h0 hin hcap h => ?_⟩
  · have hn : ¬ (s.extracted i).literalFits := fun ⟨hin, hcap⟩ =>
      hshort.elim (Nat.not_lt.mpr hin) (Nat.not_lt.mpr hcap)
    rw [exec_of_length_ne_zero (.inl h0), runCopies_of_literal_trap h0 hn]
    rfl
  · obtain ⟨u, c, r | ⟨rfl, -⟩⟩ := exec_next_of_literalFits (.inl h0) ⟨hin, hcap⟩ h
    all_goals obtain ⟨hrc, hwc, -⟩ := c.regs
    · refine ⟨by rw [r.frame]; exact hrc, fun k hk => ?_⟩
      have hbelow : s.wc + k < u.wc := hwc ▸ Nat.add_lt_add_left hk s.wc
      rw [r.outside _ (.inl hbelow)]
      exact c.payload k hk
    · exact ⟨hrc, c.payload⟩

/-- Settles O25: the guard is tested in the state the literal left, whose cursor is `WC` past the literal. -/
theorem matchGuardTraps : Obligations.MatchGuardTraps := by
  constructor
  · rintro i s _ _ rfl rfl hmat hin hcap hsrc hover
    obtain ⟨u, c, hexec⟩ := exec_of_match_trap hmat ⟨hin, hcap⟩ hsrc fun ⟨hdist, _, hroom⟩ =>
      hover.elim (Nat.not_lt.mpr hdist) (Nat.not_lt.mpr hroom)
    exact ⟨_, hexec, match_trap_frame c, c.payload, c.outside⟩
  · rintro i s t _ _ rfl rfl hmat hin hcap hdist hzero hroom h
    obtain ⟨u, c, r | ⟨-, hn⟩⟩ := exec_next_of_literalFits (.inr hmat) ⟨hin, hcap⟩ h
    · rw [complete_frame c r]
      exact ⟨rfl, rfl, rfl⟩
    · exact absurd (c.matchFits_iff.mpr ⟨hdist, hzero, hroom⟩) hn

/-- Settles O26: a distance of 0 fails the match guard whether the token carries it or finds it carried. -/
theorem zeroDistanceTraps : Obligations.ZeroDistanceTraps := by
  rintro i s _ rfl hzero hmat hin hcap hsrc
  obtain ⟨u, c, hexec⟩ := exec_of_match_trap hmat ⟨hin, hcap⟩ hsrc fun ⟨_, hne, _⟩ => hne hzero
  have hframe := match_trap_frame c
  rw [hzero] at hframe
  exact ⟨_, hexec, hframe, c.payload, c.outside⟩

/-- Settles O16: the fetch takes the opcode byte, and the guard of the extra bytes fails before any is read. -/
theorem truncatedTokenTraps : Obligations.TruncatedTokenTraps := by
  intro s s0 b hfetching hlt hb hshort
  have ⟨hturn, _⟩ := hfetching
  obtain ⟨ms, rfl⟩ : ∃ ms, s0 = { s with schedule := ms } := ⟨_, turn_frame hturn⟩
  rw [step_of_fetching hfetching, tokenStep_truncated (s := { s with schedule := ms }) hlt hb hshort]
  rfl
end

section
/-! The literal copy unit (spec/43_literal_copy_unit.md) and the two opcodes that use nothing else
(spec/46_literal_opcodes.md): a token whose guards pass completes, with the whole effect of its copies (R150, R151). -/

open Sys2Proof Sys2Proof.Machine

namespace Sys2Proof.Machine

/-- `Replayed.cyclic`, read in the output after the replay: the replay leaves the bytes it repeats where they were. -/
theorem Replayed.cyclic_self {n : Nat} {s t : State} (r : Replayed n s t) (hD0 : s.prevDist.toNat ≠ 0)
    (hD : s.prevDist.toNat ≤ s.wc) (k : Nat) (hk : k < n) :
    t.dst.read (s.wc + k) = t.dst.read (s.wc - s.prevDist.toNat + k % s.prevDist.toNat) := by
  have hmod : k % s.prevDist.toNat < s.prevDist.toNat := Nat.mod_lt k (Nat.pos_of_ne_zero hD0)
  rw [r.cyclic hD0 hD k hk, r.outside _ (.inl (by omega))]

/-- A token whose literal was copied and whose match was replayed has the whole effect of both (R128): the replay starts
at the cursor the literal left, so it keeps the payload, and what neither wrote is as before. -/
theorem completesCopy_of_copied_replayed {i : Instr} {s u t : State} (hexec : exec i s = .next t)
    (c : Copied (literalLength i).toNat (s.extracted i) u) (r : Replayed (matchLength i).toNat u t)
    (hdist : (matchLength i).toNat ≠ 0 → u.prevDist.toNat ≤ u.wc ∧ u.prevDist.toNat ≠ 0) :
    s.CompletesCopy (literalLength i).toNat (matchLength i).toNat ((ownDistance i).getD s.prevDist) (exec i s) := by
  have hframe := complete_frame c r
  obtain ⟨-, (hwc : u.wc = s.wc + (literalLength i).toNat), -,
    (hpd : u.prevDist = (ownDistance i).getD s.prevDist), -⟩ := c.regs
  refine ⟨t, hexec, by rw [hframe], by rw [hframe], ?frame, fun k hk => ?payload, fun k hk => ?cyclic,
    fun off hoff => ?outside⟩
  case frame => rw [hframe]
  case payload =>
    rw [r.outside _ (.inl (by omega))]
    exact c.payload k hk
  case cyclic =>
    obtain ⟨hle, hne⟩ := hdist (Nat.ne_zero_of_lt hk)
    rw [← hwc, ← hpd]
    exact r.cyclic_self hne hle k hk
  case outside =>
    rw [r.outside off (by omega)]
    exact c.outside off (hoff.imp_right (Nat.le_add_right _ _).trans)

/-- A copying token completes whenever its guards pass and the bytes it reads are there (R142 to R147). -/
theorem completesCopy_of_canCopy {i : Instr} {s : State} (hcopies : exec i s = runCopies (s.extracted i))
    (h : s.CanCopy (literalLength i).toNat (matchLength i).toNat ((ownDistance i).getD s.prevDist)) :
    s.CompletesCopy (literalLength i).toNat (matchLength i).toNat ((ownDistance i).getD s.prevDist) (exec i s) := by
  obtain ⟨hin, hcap, hsrc, hmatch⟩ := h
  have hlen : matchLength i ≠ 0 → (matchLength i).toNat ≠ 0 := mt (half_eq_zero_iff _).mpr
  obtain ⟨u, t, ht, c, r⟩ := runCopies_complete (s := s.extracted i) (.inr ⟨hin, hcap⟩) hsrc
    (or_iff_not_imp_left.mpr fun h0 =>
      have ⟨hle, hne, hroom, _⟩ := hmatch (hlen h0)
      ⟨hle, hne, hroom⟩)
    (fun h0 =>
      have ⟨_, _, _, hread⟩ := hmatch (hlen h0)
      hread)
  obtain ⟨-, hwc, -, hpd, hmat, -⟩ := c.regs
  rw [hmat] at r
  refine completesCopy_of_copied_replayed (hcopies.trans ht) c r fun h0 => ?_
  obtain ⟨hle, hne, -⟩ := hmatch h0
  rw [hwc, hpd]
  exact ⟨hle, hne⟩

/-- The low four bits of the opcode, widened (R171, R177). -/
theorem toNat_smallLength (n : BitVec 4) : (smallLength n).toNat = n.toNat :=
  BitVec.toNat_setWidth_of_le (by decide)

end Sys2Proof.Machine

/-- Settles O19: both opcodes are copying tokens with no match and no distance of their own, so the carried distance
stays and nothing is written but the payload. -/
theorem literalTokensComplete : Obligations.LiteralTokensComplete := by
  refine fun s => ⟨fun n h => ?large, fun n h => ?small⟩
  case large =>
    rw [← toNat_largeLength] at h ⊢
    exact completesCopy_of_canCopy (i := .literalLarge n) rfl h
  case small =>
    rw [← toNat_smallLength] at h ⊢
    exact completesCopy_of_canCopy (i := .literalSmall n) rfl h
end

section
/-! The back-reference replay engine (spec/44_replay_engine.md) behind the two match opcodes
(spec/47_match_opcodes.md): a match at the carried distance and no literal (R155 to R157, R175). -/

open Sys2Proof Sys2Proof.Machine

/-- Settles O20: both opcodes are copying tokens with no literal and no distance of their own, so the match starts at
`WC` and replays the carried distance, which stays. -/
theorem matchTokensComplete : Obligations.MatchTokensComplete := by
  refine fun s => ⟨fun n h => ?large, fun n h => ?small⟩
  case large =>
    rw [← toNat_largeLength] at h ⊢
    exact completesCopy_of_canCopy (i := .matchLarge n) rfl h
  case small =>
    rw [← toNat_smallLength] at h ⊢
    exact completesCopy_of_canCopy (i := .matchSmall n) rfl h
end

section
/-! The four distance opcodes (spec/45_distance_opcodes.md): a literal of up to 3 bytes, then a match at the token's own
distance or at the carried one (R160 to R164). -/

open Sys2Proof Sys2Proof.Machine

namespace Sys2Proof.Machine

/-! ### The fields as the numbers they stand for (R84) -/

theorem toNat_shortLiteral (lit : BitVec 2) : (shortLiteral lit).toNat = lit.toNat :=
  BitVec.toNat_setWidth_of_le (by decide)

theorem toNat_shortMatch : ∀ m : BitVec 3, (shortMatch m).toNat = m.toNat + 3 := by decide

theorem toNat_mediumMatch : ∀ m : BitVec 5, (mediumMatch m).toNat = m.toNat + 3 := by decide

theorem mediumDistance_eq_ofNat (d : BitVec 14) : mediumDistance d = BitVec.ofNat 16 d.toNat :=
  (BitVec.ofNat_toNat 16 d).symm

theorem smallDistance_eq_ofNat (d : BitVec 11) : smallDistance d = BitVec.ofNat 16 d.toNat :=
  (BitVec.ofNat_toNat 16 d).symm

end Sys2Proof.Machine

/-- Settles O18: all four opcodes are copying tokens; three replay their own distance, which becomes the carried one, and
DISTANCE_PREVIOUS the carried one, which stays. -/
theorem distanceTokensComplete : Obligations.DistanceTokensComplete := by
  refine fun s => ⟨fun lit m d h => ?large, fun lit m d h => ?medium, fun lit m d h => ?small, fun lit m h => ?previous⟩
  case large =>
    rw [← toNat_shortLiteral, ← toNat_shortMatch] at h ⊢
    exact completesCopy_of_canCopy (i := .distanceLarge lit m d) rfl h
  case medium =>
    rw [← toNat_shortLiteral, ← toNat_mediumMatch, ← mediumDistance_eq_ofNat] at h ⊢
    exact completesCopy_of_canCopy (i := .distanceMedium lit m d) rfl h
  case small =>
    rw [← toNat_shortLiteral, ← toNat_shortMatch, ← smallDistance_eq_ofNat] at h ⊢
    exact completesCopy_of_canCopy (i := .distanceSmall lit m d) rfl h
  case previous =>
    rw [← toNat_shortLiteral, ← toNat_shortMatch] at h ⊢
    exact completesCopy_of_canCopy (i := .distancePrevious lit m) rfl h
end

section
/-! The control opcodes (spec/48_control_opcodes.md): END_OF_STREAM, NONE and INVALID copy nothing, so each one's meaning
is at most one update of the state its fetch leaves (R180 to R182). -/

open Sys2Proof Sys2Proof.Machine

namespace Sys2Proof.Machine

/-- A step at the encoding of a well-formed token is that token's meaning after its fetch (R122 to R125). The state is
written in the registers of `s`, of which the turn takes only the host's move. -/
theorem step_of_encoding {s s0 : State} {i : Instr} (hi : i.WellFormed) (hfetching : s.Fetching s0)
    (hbytes : s.HasBytes (encode i)) :
    step s = exec i (State.fetched { s with schedule := s0.schedule } i (encode i)) := by
  have hdecode : decode (encode i) = .ok (i, []) := by
    rw [← decodeOfEncodeIsTheToken i [] hi, List.append_nil]
  have ⟨hturn, _⟩ := hfetching
  rw [← turn_frame hturn]
  exact stepRunsTheDecodedToken s s0 (encode i) i [] hfetching hbytes hdecode

end Sys2Proof.Machine

/-- Settles O21: the meaning is `stop(EOS)`, and 0x06 is the token's encoding. -/
theorem endOfStreamStops : Obligations.EndOfStreamStops := by
  refine ⟨exec_eq .endOfStream, fun s s0 hfetching hbytes => ?_⟩
  have hstep := step_of_encoding (i := .endOfStream) rfl hfetching hbytes
  exact ⟨_, hstep.trans (exec_eq _ _), rfl, rfl, rfl, rfl, rfl, rfl, rfl, rfl, rfl, rfl⟩

/-- Settles O22: the meaning is the identity, so the step leaves what the fetch leaves, the call running. -/
theorem noneOnlyAdvances : Obligations.NoneOnlyAdvances := by
  refine ⟨fun s b => exec_eq (.noOp b) s, fun s s0 b hb hfetching hbytes => ?_⟩
  have hwf : (Instr.noOp b).WellFormed := by
    rcases hb with rfl | rfl <;> rfl
  have hstep := step_of_encoding hwf hfetching hbytes
  have ⟨_, hrun, _⟩ := hfetching
  exact ⟨_, hstep.trans (exec_eq _ _), hrun, rfl, rfl, rfl, rfl, rfl, rfl⟩

/-- Settles O23: the meaning is the trap with the record of the token registers, which the fetch set to the byte and
its offset. -/
theorem invalidRaisesInvalidOpcode : Obligations.InvalidRaisesInvalidOpcode := by
  refine ⟨fun s b => exec_eq (.invalid b) s, fun s s0 b hwf hfetching hbytes => ?_⟩
  have hstep := step_of_encoding hwf hfetching hbytes
  exact ⟨_, hstep.trans (exec_eq _ _), rfl, rfl, rfl, rfl, rfl, rfl, rfl, rfl, rfl, rfl, rfl, rfl⟩
end

section
/-! Exceptions (spec/60_exceptions.md): which types raise which kinds and with what record (R200, R201), and that a trap,
like a successful stop, is final until the host begins anew (R208, R209). -/

open Sys2Proof Sys2Proof.Machine

namespace Sys2Proof.Machine

/-- The table of R201, read by kind: the types that may raise it. InvalidArgument is `START`'s and no type's. -/
def ErrKind.RaisedBy (k : ErrKind) (type : OpType) : Prop :=
  (k = .truncatedInput ∧ extraBytes type ≠ 0) ∨
  (k = .invalidOpcode ∧ type = .invalid) ∨
  (k = .outOfBounds ∧ type ≠ .endOfStream ∧ type ≠ .noOp ∧ type ≠ .invalid)

/-- A meaning does not write the registers that say which token was fetched and from where (R122). -/
theorem exec_keeps_fetched_token {i : Instr} {s t : State} (h : exec i s = .next t) :
    t.opcode = s.opcode ∧ t.opOffset = s.opOffset ∧ t.optype = s.optype := by
  rcases exec_next h with ⟨-, rfl⟩ | ⟨-, rfl⟩ | ⟨-, rfl⟩ | ⟨-, ⟨u, c, r, -⟩ | ⟨rfl, -⟩ | ⟨u, c, -, rfl, -⟩⟩
  · exact ⟨rfl, rfl, rfl⟩
  · exact ⟨rfl, rfl, rfl⟩
  · exact ⟨rfl, rfl, rfl⟩
  · rw [complete_frame c r]
    exact ⟨rfl, rfl, rfl⟩
  · exact ⟨rfl, rfl, rfl⟩
  · rw [match_trap_frame c]
    exact ⟨rfl, rfl, rfl⟩

/-- A meaning that traps records the fetched token, with a kind its type may raise: only INVALID and the two copy guards
raise anything. -/
theorem exec_trap_record {i : Instr} {s t : State} (hs : s.runState ≠ .fault) (h : exec i s = .next t)
    (ht : t.runState = .fault) :
    t.errOpcode = s.opcode ∧ t.errOffset = s.opOffset ∧ t.errKind.RaisedBy i.opType := by
  rcases exec_next h with ⟨-, rfl⟩ | ⟨-, rfl⟩ | ⟨hi, rfl⟩ | ⟨hi, ⟨u, c, r, -⟩ | ⟨rfl, -⟩ | ⟨u, c, -, rfl, -⟩⟩
  · cases ht
  · exact absurd ht hs
  · exact ⟨rfl, rfl, .inr (.inl ⟨rfl, hi⟩)⟩
  · rw [complete_frame c r] at ht
    exact absurd ht hs
  · exact ⟨rfl, rfl, .inr (.inr ⟨rfl, hi⟩)⟩
  · rw [match_trap_frame c]
    exact ⟨rfl, rfl, .inr (.inr ⟨rfl, hi⟩)⟩

theorem exec_of_invalid {i : Instr} (hi : i.opType = .invalid) (s : State) :
    exec i s = .next (s.raiseToken .invalidOpcode) := by
  rw [exec_eq, hi]

end Sys2Proof.Machine

/-- Settles O28: a fetch traps only for missing extra bytes, which INVALID does not have; behind it the token's meaning
keeps the fetched byte and offset and records them if it traps. -/
theorem trapsComeFromTheTabledTypes : Obligations.TrapsComeFromTheTabledTypes := by
  intro s s0 t hfetching hstep
  have ⟨hturn, hrun, _⟩ := hfetching
  rw [step_of_fetching hfetching] at hstep
  obtain ⟨ms, rfl⟩ : ∃ ms, s0 = { s with schedule := ms } := ⟨_, turn_frame hturn⟩
  obtain ⟨b, -, hb, ⟨hshort, rfl⟩ | ⟨-, hexec⟩⟩ := tokenStep_next hstep
  · have hextra : extraBytes (classify b) ≠ 0 := Nat.ne_zero_of_lt hshort
    exact ⟨hb, rfl, rfl, fun hinvalid => absurd (congrArg extraBytes hinvalid) hextra,
      fun _ => ⟨rfl, rfl, .inl ⟨rfl, hextra⟩⟩⟩
  · have hrunning : (State.afterFetch { s with schedule := ms } b).runState = .run := hrun
    have htype : (State.afterFetch { s with schedule := ms } b).token.opType = classify b := opType_assemble _ _ _
    obtain ⟨(hop : t.opcode = b), (hoff : t.opOffset = s.rc), (hopType : t.optype = classify b)⟩ :=
      exec_keeps_fetched_token hexec
    rw [hop, hopType]
    refine ⟨hb, hoff, rfl, fun hinvalid => ?_, fun hfault => ?_⟩
    · rw [exec_of_invalid (htype.trans hinvalid)] at hexec
      cases hexec
      exact ⟨rfl, rfl⟩
    · rw [← htype]
      exact exec_trap_record (by simp [hrunning]) hexec hfault

/-- Settles O40: outside `RUN` the rested machine has no step, and of the moves of R26's table only `START` and power-on
reset start there. -/
theorem noResumption : Obligations.NoResumption := by
  intro s hended
  have hout : s.runState ≠ .run := by rcases hended with h | h <;> simp [h]
  refine ⟨fun k hrest => run_of_not_run k hrest hout, fun t hstep hmoved => ?_⟩
  rcases stateMovesOnlyAsTabled s t hstep with hsame | ⟨-, hstart, -⟩ | ⟨hrun, -⟩ | ⟨hreset, -⟩
  · exact absurd hsame hmoved
  · exact .inl hstart
  · exact absurd hrun hout
  · exact .inr hreset
end

section
/-! Reset and hazards (spec/70_reset_and_hazards.md): what power-on reset clears (R230), that a running call shuts the
host out (R236), and that a new call begins from the descriptor and the buffers alone (R232). -/

open Sys2Proof Sys2Proof.Machine

namespace Sys2Proof.Machine

/-- Every move not allowed in `RUN` is one the host has only when no call is running (R236). -/
theorem hostAct_refused_of_run {s : State} {m : HostMove} (hrun : s.runState = .run) (hm : m.allowedInRun = false) :
    s.hostAct m = .refused .hostMoveDuringRun := by
  cases m with
  | rest | powerOnReset | poll => cases hm
  | collect | supplySrc | supplyDst | writeSrcPresent | writeSrcSize | writeDstPresent | writeDstCap | start
  | startWithOverlap => exact unlessRunning_of_run hrun _

/-- A call begins as after reset, but for `STATE`, the descriptor and its latched sizes, the buffers and the host's
plan: the registers the last call left do not enter (R27, R231, R232). -/
theorem beginCall_eq_reset (s : State) : s.clearRecord.beginCall = { State.reset with
    srcPresent := s.srcPresent, srcSize := s.srcSize, dstPresent := s.dstPresent, dstCap := s.dstCap,
    inSize := s.srcSize, cap := s.dstCap, src := s.src, dst := s.dst, schedule := s.schedule, runState := .run } := rfl

/-- A valid `START` looks at nothing but the descriptor, the buffers and the host's plan. -/
theorem start_congr {s t : State} (hvalid : s.descriptorValid) (hsrcPresent : t.srcPresent = s.srcPresent)
    (hdstPresent : t.dstPresent = s.dstPresent) (hsrcSize : t.srcSize = s.srcSize) (hdstCap : t.dstCap = s.dstCap)
    (hsrc : t.src = s.src) (hdst : t.dst = s.dst) (hschedule : t.schedule = s.schedule) : t.start = s.start := by
  have hvalid' : t.descriptorValid := by
    rwa [State.descriptorValid, hsrcPresent, hdstPresent, hsrcSize, hdstCap]
  have hbegins : t.clearRecord.beginCall = s.clearRecord.beginCall := by
    rw [beginCall_eq_reset, beginCall_eq_reset, hsrcPresent, hdstPresent, hsrcSize, hdstCap, hsrc, hdst, hschedule]
  rw [State.start, State.start, if_pos hvalid', if_pos hvalid, hbegins, hsrc, hsrcSize]

end Sys2Proof.Machine

/-- Settles O6: the reset state is itself a power-on, so every state spoken of is one, and its cleared presence bit
makes the descriptor invalid. -/
theorem powerOnResetClearsAndGuardsStart : Obligations.PowerOnResetClearsAndGuardsStart := by
  intro s ms p hp
  obtain ⟨u, rfl⟩ : ∃ u : State, p = u.powerOn := by
    rcases hp with rfl | ⟨hschedule, hstep⟩
    · exact ⟨State.reset, rfl⟩
    · rw [step_of_schedule hschedule] at hstep
      cases hstep
      exact ⟨_, rfl⟩
  refine ⟨rfl, rfl, rfl, rfl, rfl, rfl, rfl, ?_⟩
  rintro _ ns rfl
  have ⟨_, hinvalid, _⟩ := startCommand { u.powerOn with schedule := .start :: ns } ns rfl
  exact ⟨_, hinvalid nofun (.inl rfl), rfl, rfl⟩

/-- Settles O10: a turn takes only the move off the plan, so the call still runs when the move is refused or, being a
poll, changes nothing. -/
theorem hostIsShutOutDuringRun : Obligations.HostIsShutOutDuringRun := by
  intro s m ms hrun hschedule
  rw [step_of_schedule hschedule]
  refine ⟨hostAct_refused_of_run hrun, ?_⟩
  rintro rfl
  rfl

/-- Settles O13: both moves are taken, outside `RUN`, as a `START` of states that agree in all it looks at. -/
theorem nothingSurvivesACall : Obligations.NothingSurvivesACall := by
  intro s t ms hs ht hsOut htOut hvalid hsrcPresent hdstPresent hsrcSize hdstCap hsrc hdst
  rw [step_of_schedule_outside ht htOut rfl, step_of_schedule_outside hs hsOut rfl]
  exact start_congr hvalid hsrcPresent hdstPresent hsrcSize hdstCap hsrc hdst rfl
end
